-- ==== Sys2Proof/Word.lean ====
section
/-! DEFINITION. The unsigned words of the core (spec 00 R13: every value is unsigned, bit 0 is the least significant). -/

namespace Sys2Proof

/-- `u8`: one byte of the link, of a payload or of a buffer. -/
abbrev Byte := BitVec 8

/-- `u16`: a frame header, a CRC, a receiver's `fill_count`. -/
abbrev Word16 := BitVec 16

/-- `u32`: `gap_counter`. -/
abbrev Word32 := BitVec 32

/-- `u64`: `tick_counter` and the last timestamps. -/
abbrev Word64 := BitVec 64

/-- A command word, `op[11:9] v[8] d[7:0]` (30 R75). -/
abbrev CommandWord := BitVec 12

end Sys2Proof
end

