-- ==== Sys2Proof/Syntax.lean ====
section
/-! DEFINITION. The commands of the core as syntax: one constructor of `Instr` per row of the opcode table. -/

namespace Sys2Proof

/-- The two receive channels (00 R16). -/
inductive Channel where
  | a
  | b
deriving DecidableEq, Repr, Inhabited

/-- What the driver puts on the side ports with a command (30 R77). A command that takes no side operand ignores
the ports. -/
structure SidePorts where
  txPayload : List Byte
  crcData   : List Byte
  crcLen    : Nat
deriving DecidableEq, Repr

/-- One command as the driver issues it: a 12-bit word (30 R75) and the side ports beside it (30 R77). -/
structure Command where
  word  : CommandWord
  ports : SidePorts
deriving DecidableEq, Repr

/-- The command map of 30 R76, side operands included, and every other word as `reserved` (30 R78). -/
inductive Instr where
  /-- `STEP`: a tick with no byte (42 R151). -/
  | step
  /-- `STEP.B b`: a tick with the byte `b` (42 R153). -/
  | stepB (b : Byte)
  /-- `RXRESET c`: the caller's `reset()` of one receiver (41 R127). -/
  | rxreset (c : Channel)
  /-- `TX [payload]`: build and emit one transmit frame (43 R192). -/
  | tx (payload : List Byte)
  /-- `CRC [data], len`: checksum of the first `len` bytes (40 R103). -/
  | crc (data : List Byte) (len : Nat)
  /-- `RESET`: link initialisation (70 R240). -/
  | reset
  /-- A reserved word `w` (30 R78), refused by 60 R217. -/
  | reserved (w : CommandWord)
deriving DecidableEq, Repr

end Sys2Proof
end

