-- ==== Sys2Proof/Config.lean ====
section
/-! DEFINITION. The configuration of the core (10 R34, 00 R9 to R11), its ranges, its defaults, and the free values:
constants without a body, which no proof can evaluate. -/

namespace Sys2Proof

/-- A frame shape (00 R9): `total_size` counts the two header bytes and the two CRC bytes. -/
structure FrameSpec where
  header    : Word16
  totalSize : Nat
deriving DecidableEq, Repr

/-- `STAT_OVERFLOW` (00 R11, 10 R26). -/
inductive StatOverflow where
  | wrap
  | saturate
deriving DecidableEq, Repr, Inhabited

/-- The configuration: fixed when the link is initialised, changed by no command (10 R34). -/
structure Config where
  specA        : FrameSpec
  specB        : FrameSpec
  specTx       : FrameSpec
  timeoutTicks : Nat
  statW        : Nat
  statOverflow : StatOverflow
deriving DecidableEq, Repr

/-- `SPEC[ch]` (00 R16). -/
def Config.spec (cfg : Config) : Channel → FrameSpec
  | .a => cfg.specA
  | .b => cfg.specB

/-- `4 <= total_size <= 65535` (00 R9, D21). -/
def FrameSpec.inRange (f : FrameSpec) : Bool := decide (4 ≤ f.totalSize) && decide (f.totalSize ≤ 65535)

/-- The range constraints of 00 R9 to R11 (`STAT_W` is a positive integer: the parameter table of 92): a configuration
outside them is refused before any command (60 R217). -/
def Config.valid (cfg : Config) : Bool :=
  cfg.specA.inRange && cfg.specB.inRange && cfg.specTx.inRange
    && decide (1 ≤ cfg.timeoutTicks) && decide (cfg.timeoutTicks ≤ 4294967295)
    && decide (1 ≤ cfg.statW)

/-- Free value (log 5): the OPEN parameter `TIMEOUT_TICKS`, less one. Its type is the range of 00 R10, so the
parameter itself, one more, lies in `[1, 2^32 - 1]` and is otherwise unconstrained. -/
opaque Config.openTimeoutLessOne : Fin 4294967295

/-- Free value (log 5): the OPEN parameter `STAT_OVERFLOW` (10 R26, D6). -/
opaque Config.openStatOverflow : StatOverflow

/-- Free value (log 6): byte `i` of what the driver's own buffer `out[ch]` holds before the core first writes it
(10 R30, D11, 93 S4: any value). -/
opaque Config.driverOutByte : Channel → Nat → Byte

/-- The configuration of `State.reset`: the defaults of 00 R9 and R11, and the two OPEN parameters left open. -/
def Config.default : Config where
  specA := { header := 0xA0A5#16, totalSize := 30 }
  specB := { header := 0xAA55#16, totalSize := 160 }
  specTx := { header := 0x5AD5#16, totalSize := 34 }
  timeoutTicks := Config.openTimeoutLessOne.val + 1
  statW := 32
  statOverflow := Config.openStatOverflow

end Sys2Proof
end

