-- ==== Sys2Proof/WellFormed.lean ====
section
/-! DEFINITION. Which terms of `Instr` stand for a command of the core: a `reserved` term must carry a word that 30 R78
reserves. Every other term is well formed: a side operand of a wrong length is a command that faults, not bad syntax. -/

namespace Sys2Proof

/-- The reserved encodings, written from 30 R78 and the "must be 0" column of 30 R75: an unused `op`; STEP with
`v = 0` and `d ≠ 0`; RXRESET with `v = 1` or `d[7:1] ≠ 0`; TX, CRC or RESET with `v = 1` or `d ≠ 0`. -/
def reservedWord (w : CommandWord) : Bool :=
  match (w >>> 9).toNat with
  | 0 => !w.getLsbD 8 && (w &&& 0x0FF#12) != 0#12
  | 1 => (w &&& 0x1FE#12) != 0#12
  | 2 => (w &&& 0x1FF#12) != 0#12
  | 3 => (w &&& 0x1FF#12) != 0#12
  | 7 => (w &&& 0x1FF#12) != 0#12
  | _ => true

/-- Well-formedness of a command as syntax. -/
def Instr.wf : Instr → Bool
  | .step => true
  | .stepB _ => true
  | .rxreset _ => true
  | .tx _ => true
  | .crc _ _ => true
  | .reset => true
  | .reserved w => reservedWord w

end Sys2Proof
end

