-- ==== Sys2Proof/Decode.lean ====
section
/-! DEFINITION. The decoder of 30 R79, total on every command word, and the encoder, both written from the tables of
30 R75 and R76. A word outside the command map decodes to `reserved` with that word: rejected by name. -/

namespace Sys2Proof

/-- `op = w[11:9]` (30 R75). -/
def opField (w : CommandWord) : BitVec 3 := w.extractLsb' 9 3

/-- `v = w[8]` (30 R75). -/
def vField (w : CommandWord) : BitVec 1 := w.extractLsb' 8 1

/-- `d = w[7:0]` (30 R75). -/
def dField (w : CommandWord) : Byte := w.extractLsb' 0 8

/-- `op[11:9] v[8] d[7:0]`: a word from its three fields (30 R75). -/
def commandWord (op : BitVec 3) (v : BitVec 1) (d : Byte) : CommandWord := op ++ v ++ d

/-- The channel that `d[0]` of an RXRESET names: 0 is A, 1 is B (30 R75). -/
def channelOfBit (x : BitVec 1) : Channel := if x = 0#1 then .a else .b

/-- The `d` field of `RXRESET c` (30 R76: `0000000c`). -/
def channelByte : Channel → Byte
  | .a => 0x00#8
  | .b => 0x01#8

/-- Decoding (30 R79): total, in the order of the spec's pseudocode. TX and CRC take their side operands from the
ports (30 R77); the other commands ignore the ports. -/
def decode (c : Command) : Instr :=
  let op := opField c.word
  let v := vField c.word
  let d := dField c.word
  if op = 0b000#3 ∧ v = 0#1 ∧ d = 0#8 then .step
  else if op = 0b000#3 ∧ v = 1#1 then .stepB d
  else if op = 0b001#3 ∧ v = 0#1 ∧ d.extractLsb' 1 7 = 0#7 then .rxreset (channelOfBit (d.extractLsb' 0 1))
  else if op = 0b010#3 ∧ v = 0#1 ∧ d = 0#8 then .tx c.ports.txPayload
  else if op = 0b011#3 ∧ v = 0#1 ∧ d = 0#8 then .crc c.ports.crcData c.ports.crcLen
  else if op = 0b111#3 ∧ v = 0#1 ∧ d = 0#8 then .reset
  else .reserved c.word

/-- The word of a command (30 R76). -/
def encodeWord : Instr → CommandWord
  | .step => commandWord 0b000#3 0#1 0#8
  | .stepB b => commandWord 0b000#3 1#1 b
  | .rxreset c => commandWord 0b001#3 0#1 (channelByte c)
  | .tx _ => commandWord 0b010#3 0#1 0#8
  | .crc _ _ => commandWord 0b011#3 0#1 0#8
  | .reset => commandWord 0b111#3 0#1 0#8
  | .reserved w => w

/-- Side ports that carry nothing. -/
def emptyPorts : SidePorts := { txPayload := [], crcData := [], crcLen := 0 }

/-- The side ports of a command (30 R77): TX puts its payload there, CRC its data and its length. -/
def encodePorts : Instr → SidePorts
  | .step => emptyPorts
  | .stepB _ => emptyPorts
  | .rxreset _ => emptyPorts
  | .tx payload => { emptyPorts with txPayload := payload }
  | .crc data len => { emptyPorts with crcData := data, crcLen := len }
  | .reset => emptyPorts
  | .reserved _ => emptyPorts

/-- The command that the driver issues for an instruction: its word and its side operands. -/
def encode (i : Instr) : Command := { word := encodeWord i, ports := encodePorts i }

/-- Side operands of zeros under a configuration (log 13): a transmit payload of the required length with every byte
zero, and an empty checksum operand. They stand for "every operand bit above the command word is 0". -/
def zeroPorts (cfg : Config) : SidePorts :=
  { txPayload := List.replicate (cfg.specTx.totalSize - 4) 0#8, crcData := [], crcLen := 0 }

/-- The instruction the decoder reads from an opcode-table word of `nbits` bits. A command word has 12 bits (30 R75),
so a number that does not fit in 12 bits is no command word and gives `none`. -/
def decodeTableWord (nbits w : Nat) : Option Instr :=
  if w < 2 ^ nbits ∧ w < 4096 then
    some (decode { word := BitVec.ofNat 12 w, ports := zeroPorts Config.default })
  else none

end Sys2Proof
end

