-- ==== Sys2Proof/Machine/State.lean ====
section
/-! DEFINITION. The core's state as plain data (10 R20), the reasons of faults and refusals (60 R211), the state at
power-up (10 R41, 70 R241) and `State.reset`. -/

namespace Sys2Proof.Machine

/-- One byte store of the core (20 R50): the receive buffer or the payload output buffer of a channel, as (index, byte)
cells with strictly rising indices. An index that is not listed holds no value written by the core (10 R41). -/
abbrev Memory := List Host.Cell

/-- The states of a receiver (10 R22). -/
inductive ReceiverState where
  | idle
  | starting
  | receiving
  | completed
deriving DecidableEq, Repr

/-- A receiver record (10 R21). Its `spec` is configuration and is stored once, in `State.cfg`. -/
structure Receiver where
  state     : ReceiverState
  buffer    : Memory
  fillCount : Word16
deriving DecidableEq, Repr

/-- A stats record (10 R25). Each counter is `STAT_W` bits wide: a number below `2 ^ STAT_W` (10 R26). -/
structure Stats where
  valid   : Nat
  invalid : Nat
  aborted : Nat
deriving DecidableEq, Repr

/-- One value for channel A and one for channel B: `rx[ch]`, `stats[ch]`, `last_ts[ch]`, `out[ch]` (00 R16). -/
structure PerChannel (α : Type) where
  a : α
  b : α
deriving DecidableEq, Repr

/-- The fault reasons (60 R211, kind "fault"). Raised as a value recorded in `State.fault`; a command issued
afterwards answers `Outcome.fault` with the recorded reason (60 R216). All of them are safe: the machine stops. -/
inductive Fault where
  /-- Code 4: TX with a payload that is not `SPEC_TX.total_size - 4` bytes (43 R191). Raised by TX. Safe. -/
  | invalidPayloadLength
  /-- Code 5: CRC with `crc_len > len(crc_data)` (40 R102). Raised by CRC. Safe. -/
  | crcLengthOutOfRange
  /-- Code 6: a read of a receive-buffer byte never written (20 R52), or a driver read of `crc_out` with no value
  (10 R32). Raised by a driver read; by STEP.B only from a state that no run reaches. Safe. -/
  | unwrittenRead
  /-- Code 7: `BufWrite` or `OutWrite` outside its store (20 R51, R53). Raised by STEP.B only from a state that no run
  reaches. Safe. -/
  | indexOutOfRange
deriving DecidableEq, Repr

/-- The refusal reasons (60 R211, kind "refusal"). A refused command is recorded in `State.refused`; a command issued
afterwards answers `Outcome.refused` (60 R217). All of them are safe: the machine stops. -/
inductive Refusal where
  /-- No meaning is written for the instruction. Raised by no arm of this model. Safe. -/
  | notModelled (mnemonic : String)
  /-- Code 8: a reserved command word was issued (30 R78). Raised by every later command. Safe. -/
  | reservedCommand
  /-- Code 9: the configuration is outside the ranges of 00 R9 to R11. Raised by every command. Safe. -/
  | badConfiguration
deriving DecidableEq, Repr

/-- What the driver can read at a command boundary: every field of 10 R20 (10 R36), the byte stores by index (20 R50). -/
inductive Observable where
  | spec (ch : Channel)
  | receiverState (ch : Channel)
  | fillCount (ch : Channel)
  | bufferByte (ch : Channel) (i : Nat)
  | gapCounter
  | tickCounter
  | valid (ch : Channel)
  | invalid (ch : Channel)
  | aborted (ch : Channel)
  | lastTs (ch : Channel)
  | outByte (ch : Channel) (i : Nat)
  | txLength
  | txByte (i : Nat)
  | crcOut
  | fault
  | refused
deriving DecidableEq, Repr

/-- What the driver does next (60 R228): it issues a command, or it reads a field between commands. -/
inductive DriverAction where
  | command (c : Command)
  | read (o : Observable)
deriving DecidableEq, Repr

/-- The state record of 10 R20, the configuration (10 R34), and the model's own `input`: what the driver does next,
first action first (log 3). -/
structure State where
  cfg         : Config
  rx          : PerChannel Receiver
  gapCounter  : Word32
  tickCounter : Word64
  stats       : PerChannel Stats
  lastTs      : PerChannel Word64
  out         : PerChannel Memory
  txStream    : List Byte
  crcOut      : Option Word16
  fault       : Option Fault
  refused     : Bool
  input       : List DriverAction
deriving DecidableEq, Repr

/-- A receiver at power-up: `Idle`, nothing accepted, no byte of the buffer with a value (10 R41). -/
def Receiver.powered : Receiver := { state := .idle, buffer := [], fillCount := 0#16 }

/-- Stats at power-up (10 R41). -/
def Stats.zero : Stats := { valid := 0, invalid := 0, aborted := 0 }

/-- The state at power-up under an accepted configuration (10 R41, 70 R241), with no driver action pending. -/
def State.powered (cfg : Config) : State where
  cfg := cfg
  rx := { a := Receiver.powered, b := Receiver.powered }
  gapCounter := 0#32
  tickCounter := 0#64
  stats := { a := Stats.zero, b := Stats.zero }
  lastTs := { a := 0#64, b := 0#64 }
  out := { a := [], b := [] }
  txStream := []
  crcOut := none
  fault := none
  refused := false
  input := []

/-- Power-up under any configuration: one outside the ranges of 00 R9 to R11 is refused before the first command
(60 R211 code 9, R217); its other fields are those of any power-up (log 10). -/
def State.powerUp (cfg : Config) : State := { State.powered cfg with refused := !cfg.valid }

/-- The machine right after power-up under the default configuration, which is in range
(`Sys2Proof.Machine.reset_eq_powerUp`). -/
def State.reset : State := State.powered Config.default

end Sys2Proof.Machine
end

