-- ==== Sys2Proof/Machine/Operands.lean ====
section
/-! DEFINITION. The operand forms of the core: header bytes, big-endian 16-bit values, the frame's fields, and access
to a channel's half of a pair. -/

namespace Sys2Proof.Machine

/-- `hi8(h) = h[15:8]` (00 R13): the first byte on the wire of a 16-bit value (20 R55). -/
def hi8 (h : Word16) : Byte := h.extractLsb' 8 8

/-- `lo8(h) = h[7:0]` (00 R13). -/
def lo8 (h : Word16) : Byte := h.extractLsb' 0 8

/-- `{x, y}`: the 16-bit value whose high byte is `x` (00 R13), the big-endian value of two wire bytes (20 R56). -/
def be16 (x y : Byte) : Word16 := x ++ y

/-- The payload length `total_size - 4` (00 R9). -/
def payloadLength (f : FrameSpec) : Nat := f.totalSize - 4

/-- How many bytes the CRC covers: `total_size - 2`, the header and the payload (30 R71). -/
def crcCovered (f : FrameSpec) : Nat := f.totalSize - 2

/-- The `ch` half of a pair (00 R16). -/
def PerChannel.get {α : Type} (p : PerChannel α) : Channel → α
  | .a => p.a
  | .b => p.b

/-- Replace the `ch` half of a pair; the other half stays. -/
def PerChannel.set {α : Type} (p : PerChannel α) (ch : Channel) (x : α) : PerChannel α :=
  match ch with
  | .a => { p with a := x }
  | .b => { p with b := x }

end Sys2Proof.Machine
end

