-- ==== Sys2Proof/Machine/Flags.lean ====
section
/-! DEFINITION. The counters that stand for flags: the core has no flag register (10 R35), and its status is the stats
records (10 R25), counted by `Inc` (10 R26). -/

namespace Sys2Proof.Machine

/-- The largest value of a stats counter, `2^STAT_W - 1` (10 R26). -/
def statMax (cfg : Config) : Nat := 2 ^ cfg.statW - 1

/-- `Inc(c)` (10 R26): one more below the maximum; at the maximum `STAT_OVERFLOW` decides. -/
def inc (cfg : Config) (c : Nat) : Nat :=
  if c < statMax cfg then c + 1
  else
    match cfg.statOverflow with
    | .wrap => 0
    | .saturate => statMax cfg

/-- `s.stats[ch].valid <- Inc(s.stats[ch].valid)` (42 R157). -/
def countValid (ch : Channel) (s : State) : State :=
  { s with stats := s.stats.set ch { s.stats.get ch with valid := inc s.cfg (s.stats.get ch).valid } }

/-- `s.stats[ch].invalid <- Inc(s.stats[ch].invalid)` (42 R158). -/
def countInvalid (ch : Channel) (s : State) : State :=
  { s with stats := s.stats.set ch { s.stats.get ch with invalid := inc s.cfg (s.stats.get ch).invalid } }

/-- `s.stats[A].aborted <- Inc(s.stats[A].aborted)` (42 R152): the only writer of an `aborted` counter. -/
def countAborted (s : State) : State :=
  { s with stats := s.stats.set .a { s.stats.get .a with aborted := inc s.cfg (s.stats.get .a).aborted } }

end Sys2Proof.Machine
end

