-- ==== Sys2Proof/Machine/Ops.lean ====
section
/-! DEFINITION. The named operations over stores and state: the byte primitives of 20 R51 to R54, the one operation
that records a fault and the one that records a refusal (60 R216, R217), and the form every command has (60 R216). -/

namespace Sys2Proof.Machine

/-- The canonical form of a byte store: strictly rising indices. An unlisted index has no value, so no listed byte can
equal what an unlisted index reads as. -/
abbrev Memory.wf (m : Memory) : Prop := m.Pairwise (fun x y => x.1 < y.1)

/-- The byte at an index, or none where nothing has been written. -/
def Memory.read : Memory → Nat → Option Byte
  | [], _ => none
  | (j, v) :: m, i => if i = j then some v else Memory.read m i

/-- Write one byte, keeping the canonical form. -/
def Memory.write : Memory → Nat → Byte → Memory
  | [], i, v => [(i, v)]
  | (j, w) :: m, i, v =>
    if i < j then (i, v) :: (j, w) :: m
    else if i = j then (i, v) :: m
    else (j, w) :: Memory.write m i v

/-- `BufRead(ch, i)` on that channel's receiver (20 R52): a byte never written faults. -/
def bufRead (r : Receiver) (i : Nat) : Except Fault Byte :=
  match Memory.read r.buffer i with
  | some v => .ok v
  | none => .error .unwrittenRead

/-- `BufWrite(ch, i, v)` on that channel's receiver, `0 <= i < total_size` required (20 R51). -/
def bufWrite (spec : FrameSpec) (r : Receiver) (i : Nat) (v : Byte) : Except Fault Receiver :=
  if i < spec.totalSize then .ok { r with buffer := Memory.write r.buffer i v }
  else .error .indexOutOfRange

/-- `OutWrite(ch, i, v)` on that channel's output buffer, `0 <= i < total_size - 4` required (20 R53). -/
def outWrite (spec : FrameSpec) (m : Memory) (i : Nat) (v : Byte) : Except Fault Memory :=
  if i < payloadLength spec then .ok (Memory.write m i v)
  else .error .indexOutOfRange

/-- `TxAppend(v)` (20 R54). -/
def txAppend (v : Byte) (s : State) : State := { s with txStream := s.txStream ++ [v] }

/-- The bytes `BufRead(ch, i), BufRead(ch, i+1), ...`, `n` of them in index order. -/
def bufReadRange (r : Receiver) : Nat → Nat → Except Fault (List Byte)
  | _, 0 => .ok []
  | i, n + 1 =>
    match bufRead r i with
    | .error e => .error e
    | .ok v =>
      match bufReadRange r (i + 1) n with
      | .error e => .error e
      | .ok vs => .ok (v :: vs)

/-- Record a fault (60 R216): `fault <- reason`, nothing else. A reason already recorded is never replaced (log 11). -/
def recordFault (reason : Fault) (s : State) : State :=
  match s.fault with
  | none => { s with fault := some reason }
  | some _ => s

/-- Record a refusal (60 R217): `refused <- true`, nothing else. -/
def recordRefusal (s : State) : State := { s with refused := true }

/-- Why a machine whose `refused` is set stopped: its configuration is out of range, or else a reserved command was
issued (60 R211 codes 8 and 9; log 11). -/
def refusalReason (s : State) : Refusal := if s.cfg.valid then .reservedCommand else .badConfiguration

/-- The form of every command (60 R216, R217): no command has a step once a fault or a refusal is recorded; a command
that raises a fault performs none of its writes and records the reason; otherwise the command takes effect whole. -/
def runCommand (s : State) (body : Except Fault State) : Host.Outcome State Fault Refusal :=
  match s.fault with
  | some reason => .fault reason
  | none =>
    if s.refused then .refused (refusalReason s)
    else
      match body with
      | .ok t => .next t
      | .error reason => .next (recordFault reason s)

/-- The driver's next action and the state without it (60 R228, log 3). -/
def nextAction (s : State) : Option (DriverAction × State) :=
  match s.input with
  | [] => none
  | x :: rest => some (x, { s with input := rest })

end Sys2Proof.Machine
end

