-- ==== Sys2Proof/Machine/Checksum.lean ====
section
/-! DEFINITION. The CRC-16 generator (40 R100 to R102) and the CRC command (40 R103). -/

namespace Sys2Proof.Machine

/-- One of the eight shifts of 40 R100: bit 15 is tested before the shift. -/
def crcShift (r : Word16) : Word16 :=
  if r.getLsbD 15 then (r <<< 1) ^^^ 0x1021#16 else r <<< 1

/-- `n` shifts. -/
def crcShifts : Nat → Word16 → Word16
  | 0, r => r
  | n + 1, r => crcShifts n (crcShift r)

/-- One data byte of 40 R100: XOR it into the high 8 bits of the register, then shift 8 times. -/
def crcByte (r : Word16) (d : Byte) : Word16 := crcShifts 8 (r ^^^ be16 d 0#8)

/-- The register after all bytes of a sequence, in index order. -/
def crcBytes : Word16 → List Byte → Word16
  | r, [] => r
  | r, d :: ds => crcBytes (crcByte r d) ds

/-- `crc16_ccitt(data, length)` (40 R100 to R102). -/
def crc16 (data : List Byte) (length : Nat) : Except Fault Word16 :=
  if data.length < length then .error .crcLengthOutOfRange
  else .ok (crcBytes 0xFFFF#16 (data.take length))

/-- What CRC does (40 R103): the checksum of the side operand into `crc_out`. -/
def checksumCommand (data : List Byte) (len : Nat) (s : State) : Except Fault State :=
  match crc16 data len with
  | .error e => .error e
  | .ok r => .ok { s with crcOut := some r }

/-- `CRC [data], len` (40 R103). -/
def execCrc (data : List Byte) (len : Nat) (s : State) : Host.Outcome State Fault Refusal :=
  runCommand s (checksumCommand data len s)

end Sys2Proof.Machine
end

