-- ==== Sys2Proof/Machine/Builder.lean ====
section
/-! DEFINITION. The frame builder (43 R190, R191) and the TX command (43 R192). -/

namespace Sys2Proof.Machine

/-- `build(payload, spec)` (43 R190): the header big-endian, the payload verbatim, the CRC of both big-endian (30 R70).
A payload of a wrong length faults before any byte is made (43 R191). -/
def build (payload : List Byte) (spec : FrameSpec) : Except Fault (List Byte) :=
  if payload.length ≠ payloadLength spec then .error .invalidPayloadLength
  else
    match crc16 (hi8 spec.header :: lo8 spec.header :: payload) (crcCovered spec) with
    | .error e => .error e
    | .ok c => .ok (hi8 spec.header :: lo8 spec.header :: payload ++ [hi8 c, lo8 c])

/-- `TxAppend` of each byte in index order (43 R192). -/
def txAppendAll : List Byte → State → State
  | [], s => s
  | v :: vs, s => txAppendAll vs (txAppend v s)

/-- What TX does (43 R192): build under `SPEC_TX`, then append every byte of the frame. -/
def txCommand (payload : List Byte) (s : State) : Except Fault State :=
  match build payload s.cfg.specTx with
  | .error e => .error e
  | .ok f => .ok (txAppendAll f s)

/-- `TX [payload]` (43 R192). -/
def execTx (payload : List Byte) (s : State) : Host.Outcome State Fault Refusal :=
  runCommand s (txCommand payload s)

end Sys2Proof.Machine
end

