-- ==== Sys2Proof/Machine/Receiver.lean ====
section
/-! DEFINITION. The frame receiver: append, `reset()`, the feed of one byte (41 R121 to R128), and RXRESET (41 R127).
A feed is a function of one receiver and its frame shape, so the two receivers share no state (41 R120). -/

namespace Sys2Proof.Machine

/-- `Append(ch, b)` (41 R128): `b` at index `fill_count`, then `fill_count + 1`. -/
def appendByte (spec : FrameSpec) (b : Byte) (r : Receiver) : Except Fault Receiver :=
  match bufWrite spec r r.fillCount.toNat b with
  | .error e => .error e
  | .ok r' => .ok { r' with fillCount := r'.fillCount + 1#16 }

/-- `reset()` of a receiver (41 R126): the buffer keeps its bytes. -/
def resetReceiver (r : Receiver) : Receiver := { r with state := .idle, fillCount := 0#16 }

/-- The feed in `Idle` (41 R122). -/
def feedIdle (spec : FrameSpec) (b : Byte) (r : Receiver) : Except Fault (Bool × Receiver) :=
  if b = hi8 spec.header then
    match appendByte spec b r with
    | .error e => .error e
    | .ok r' => .ok (false, { r' with state := .starting })
  else .ok (false, r)

/-- The feed in `Starting` (41 R123): a byte that does not match is dropped and not looked at again. -/
def feedStarting (spec : FrameSpec) (b : Byte) (r : Receiver) : Except Fault (Bool × Receiver) :=
  if b = lo8 spec.header then
    match appendByte spec b r with
    | .error e => .error e
    | .ok r' => .ok (false, { r' with state := .receiving })
  else .ok (false, resetReceiver r)

/-- The feed in `Receiving` (41 R124): every byte is accepted, and the `total_size`-th completes the frame. -/
def feedReceiving (spec : FrameSpec) (b : Byte) (r : Receiver) : Except Fault (Bool × Receiver) :=
  match appendByte spec b r with
  | .error e => .error e
  | .ok r' =>
    if r'.fillCount.toNat = spec.totalSize then .ok (true, { r' with state := .completed })
    else .ok (false, r')

/-- The feed in `Completed` (41 R125): the byte is ignored. -/
def feedCompleted (r : Receiver) : Except Fault (Bool × Receiver) := .ok (false, r)

/-- `feed(ch, b)` on that channel's receiver (41 R121): whether it just completed, and the receiver after. -/
def feedReceiver (spec : FrameSpec) (b : Byte) (r : Receiver) : Except Fault (Bool × Receiver) :=
  match r.state with
  | .idle => feedIdle spec b r
  | .starting => feedStarting spec b r
  | .receiving => feedReceiving spec b r
  | .completed => feedCompleted r

/-- `feed(ch, b)` (41 R121) as an operation on the state. -/
def feed (ch : Channel) (b : Byte) (s : State) : Except Fault (Bool × State) :=
  match feedReceiver (s.cfg.spec ch) b (s.rx.get ch) with
  | .error e => .error e
  | .ok (done, r) => .ok (done, { s with rx := s.rx.set ch r })

/-- `reset(ch)` (41 R126) as an operation on the state. -/
def resetChannel (ch : Channel) (s : State) : State :=
  { s with rx := s.rx.set ch (resetReceiver (s.rx.get ch)) }

/-- What RXRESET does (41 R127): `reset(c)`, and `gap_counter <- 0` when `c = A`. -/
def rxresetCommand (c : Channel) (s : State) : State :=
  match c with
  | .a => { resetChannel .a s with gapCounter := 0#32 }
  | .b => resetChannel .b s

/-- `RXRESET c` (41 R127). -/
def execRxreset (c : Channel) (s : State) : Host.Outcome State Fault Refusal :=
  runCommand s (.ok (rxresetCommand c s))

end Sys2Proof.Machine
end

