-- ==== Sys2Proof/Machine/Link.lean ====
section
/-! DEFINITION. RESET, the link initialisation (70 R240), and the reserved command words (30 R78, 60 R217). -/

namespace Sys2Proof.Machine

/-- What RESET does (70 R240, 10 R41): both receivers, both counters, the stats, the timestamps and `crc_out`. The
buffers, `out`, `tx_stream`, `fault` and `refused` stay. -/
def resetCommand (s : State) : State :=
  { resetChannel .b (resetChannel .a s) with
    gapCounter := 0#32
    tickCounter := 0#64
    stats := { a := Stats.zero, b := Stats.zero }
    lastTs := { a := 0#64, b := 0#64 }
    crcOut := none }

/-- `RESET` (70 R240). -/
def execReset (s : State) : Host.Outcome State Fault Refusal :=
  runCommand s (.ok (resetCommand s))

/-- What any reserved word does (60 R217): no state write, and `refused <- true`. The word makes no difference. -/
def reservedCommandOf (_w : CommandWord) (s : State) : State := recordRefusal s

/-- A reserved word (30 R78): the refusal is recorded, and no command has a step afterwards (60 R217). -/
def execReserved (w : CommandWord) (s : State) : Host.Outcome State Fault Refusal :=
  runCommand s (.ok (reservedCommandOf w s))

end Sys2Proof.Machine
end

