-- ==== Sys2Proof/Machine/Orchestrator.lean ====
section
/-! DEFINITION. The receive orchestrator (42 R150 to R159): the tick, the timeout, the routing, the completion, and the
commands STEP and STEP.B. -/

namespace Sys2Proof.Machine

/-- `tick_counter + 1` modulo 2^64 (42 R150, 10 R27). -/
def tick (s : State) : State := { s with tickCounter := s.tickCounter + 1#64 }

/-- `timeout_abort()` (42 R152). -/
def timeoutAbort (s : State) : State := { countAborted (resetChannel .a s) with gapCounter := 0#32 }

/-- The gap part of STEP (42 R151, the literal condition of C1): counted while A is not `Idle`, with the comparison
after the increment. -/
def gapTick (s : State) : State :=
  if (s.rx.get .a).state = .idle then s
  else if s.cfg.timeoutTicks ≤ (s.gapCounter + 1#32).toNat then
    timeoutAbort { s with gapCounter := s.gapCounter + 1#32 }
  else { s with gapCounter := s.gapCounter + 1#32 }

/-- What STEP does (42 R151). -/
def stepCommand (s : State) : State := gapTick (tick s)

/-- `route()` (42 R154). -/
def route (s : State) : Channel := if (s.rx.get .a).state = .completed then .b else .a

/-- `validate(ch)` on that channel's receiver (42 R156): the trailing big-endian CRC against the CRC of everything
before it. -/
def validate (spec : FrameSpec) (r : Receiver) : Except Fault Bool :=
  match bufRead r (spec.totalSize - 2) with
  | .error e => .error e
  | .ok x =>
    match bufRead r (spec.totalSize - 1) with
    | .error e => .error e
    | .ok y =>
      match bufReadRange r 0 (crcCovered spec) with
      | .error e => .error e
      | .ok data =>
        match crc16 data (crcCovered spec) with
        | .error e => .error e
        | .ok computed => .ok (decide (be16 x y = computed))

/-- The payload copy (42 R157): `OutWrite(ch, i, BufRead(ch, i+2))` for the `n` indices from `i` on. -/
def copyPayload (spec : FrameSpec) (r : Receiver) : Nat → Nat → Memory → Except Fault Memory
  | _, 0, m => .ok m
  | i, n + 1, m =>
    match bufRead r (i + 2) with
    | .error e => .error e
    | .ok v =>
      match outWrite spec m i v with
      | .error e => .error e
      | .ok m' => copyPayload spec r (i + 1) n m'

/-- `valid_path(ch)` (42 R157): payload, timestamp, count. -/
def validPath (ch : Channel) (s : State) : Except Fault State :=
  match copyPayload (s.cfg.spec ch) (s.rx.get ch) 0 (payloadLength (s.cfg.spec ch)) (s.out.get ch) with
  | .error e => .error e
  | .ok m =>
    .ok (countValid ch { s with out := s.out.set ch m, lastTs := s.lastTs.set ch s.tickCounter })

/-- `invalid_path(ch)` (42 R158). -/
def invalidPath (ch : Channel) (s : State) : State := countInvalid ch s

/-- `rearm(ch)` (42 R159): a completion of B resets both receivers; A stays `Completed`. -/
def rearm (ch : Channel) (s : State) : State :=
  match ch with
  | .a => s
  | .b => resetChannel .a (resetChannel .b s)

/-- `complete(ch)` (42 R155). -/
def complete (ch : Channel) (s : State) : Except Fault State :=
  match validate (s.cfg.spec ch) (s.rx.get ch) with
  | .error e => .error e
  | .ok false => .ok (rearm ch (invalidPath ch s))
  | .ok true =>
    match validPath ch s with
    | .error e => .error e
    | .ok t => .ok (rearm ch t)

/-- What STEP.B does (42 R153): tick, clear the gap, route, feed, and complete when the feed says so. -/
def stepByteCommand (b : Byte) (s : State) : Except Fault State :=
  match feed (route s) b { tick s with gapCounter := 0#32 } with
  | .error e => .error e
  | .ok (false, t) => .ok t
  | .ok (true, t) => complete (route s) t

/-- `STEP` (42 R151). -/
def execStep (s : State) : Host.Outcome State Fault Refusal :=
  runCommand s (.ok (stepCommand s))

/-- `STEP.B b` (42 R153). -/
def execStepB (b : Byte) (s : State) : Host.Outcome State Fault Refusal :=
  runCommand s (stepByteCommand b s)

end Sys2Proof.Machine
end

