-- ==== Sys2Proof/Machine/Dispatch.lean ====
section
/-! DEFINITION. The meaning of each command: one arm per constructor of `Instr`. -/

namespace Sys2Proof.Machine

def exec (i : Instr) (s : State) : Host.Outcome State Fault Refusal :=
  match i with
  | .step => Sys2Proof.Machine.execStep s
  | .stepB b => Sys2Proof.Machine.execStepB b s
  | .rxreset c => Sys2Proof.Machine.execRxreset c s
  | .tx payload => Sys2Proof.Machine.execTx payload s
  | .crc data len => Sys2Proof.Machine.execCrc data len s
  | .reset => Sys2Proof.Machine.execReset s
  | .reserved w => Sys2Proof.Machine.execReserved w s

end Sys2Proof.Machine
end

