-- ==== Sys2Proof/Machine/Driver.lean ====
section
/-! DEFINITION. What the driver reads between commands (10 R36, 60 R228): the value of an observable, and the fault that
a read without a value records (10 R32, 20 R52, 60 R211 code 6). -/

namespace Sys2Proof.Machine

/-- The numbers by which receiver states are shown (10 R22, D31). No rule depends on them. -/
def receiverStateNumber : ReceiverState → Nat
  | .idle => 0
  | .starting => 1
  | .receiving => 2
  | .completed => 3

/-- What a read gives; `absent` where the index read is outside its store, so that no byte is there to read (log 12). -/
inductive Reading where
  | spec (f : FrameSpec)
  | state (x : ReceiverState)
  | number (n : Nat)
  | byte (b : Byte)
  | reason (r : Option Fault)
  | flag (x : Bool)
  | absent
deriving DecidableEq, Repr

/-- A byte of a payload output buffer as the driver finds it (10 R30): what the core wrote, and before that the
driver's own byte, a free value (log 6). -/
def driverOutRead (s : State) (ch : Channel) (i : Nat) : Byte :=
  match Memory.read (s.out.get ch) i with
  | some v => v
  | none => Config.driverOutByte ch i

/-- The value of an observable (10 R36), or the fault the read raises. A byte outside its store is no
field of 10 R20: the read of it gives `absent`, with no side effect (20 R59; what it gives is the model's choice, log 12). -/
def observe (o : Observable) (s : State) : Except Fault Reading :=
  match o with
  | .spec ch => .ok (.spec (s.cfg.spec ch))
  | .receiverState ch => .ok (.state (s.rx.get ch).state)
  | .fillCount ch => .ok (.number (s.rx.get ch).fillCount.toNat)
  | .bufferByte ch i =>
    if i < (s.cfg.spec ch).totalSize then
      match bufRead (s.rx.get ch) i with
      | .error e => .error e
      | .ok v => .ok (.byte v)
    else .ok .absent
  | .gapCounter => .ok (.number s.gapCounter.toNat)
  | .tickCounter => .ok (.number s.tickCounter.toNat)
  | .valid ch => .ok (.number (s.stats.get ch).valid)
  | .invalid ch => .ok (.number (s.stats.get ch).invalid)
  | .aborted ch => .ok (.number (s.stats.get ch).aborted)
  | .lastTs ch => .ok (.number (s.lastTs.get ch).toNat)
  | .outByte ch i =>
    if i < payloadLength (s.cfg.spec ch) then .ok (.byte (driverOutRead s ch i))
    else .ok .absent
  | .txLength => .ok (.number s.txStream.length)
  | .txByte i =>
    match s.txStream[i]? with
    | some v => .ok (.byte v)
    | none => .ok .absent
  | .crcOut =>
    match s.crcOut with
    | some v => .ok (.number v.toNat)
    | none => .error .unwrittenRead
  | .fault => .ok (.reason s.fault)
  | .refused => .ok (.flag s.refused)

/-- A driver read as an event between commands: a read that gives a value has no side effect (20 R59); one that
faults records the reason (60 R211 code 6, R216). -/
def driverRead (o : Observable) (s : State) : State :=
  match observe o s with
  | .ok _ => s
  | .error e => recordFault e s

end Sys2Proof.Machine
end

