-- ==== Sys2Proof/Machine/Run.lean ====
section
/-! DEFINITION. A run of the machine (60 R229): what the driver does after power-up, one action after another; the state
the run ends in; and the result, which a run that ends with `fault` or `refused` set does not have. -/

namespace Sys2Proof.Machine

/-- One action of the driver (60 R228): a command, decoded and run whole (20 R58, R60), or a read between commands. -/
def runAction (x : DriverAction) (s : State) : Host.Outcome State Fault Refusal :=
  match x with
  | .command c => exec (decode c) s
  | .read o => .next (driverRead o s)

/-- The state after an action. A command that has no step (60 R216, R217) leaves the state as it is. -/
def afterAction (s : State) (x : DriverAction) : State :=
  match runAction x s with
  | .next t => t
  | .fault _ => s
  | .refused _ => s

/-- The state a sequence of actions ends in. -/
def endState (actions : List DriverAction) (s : State) : State := actions.foldl afterAction s

/-- What a state is as the end of a run (60 R229): the run's result, or none where `fault` or `refused` is set. -/
def resultOf (s : State) : Option State :=
  match s.fault with
  | some _ => none
  | none => if s.refused then none else some s

/-- The result of the run that the driver's actions make after power-up under a configuration (60 R229): the state after the
last of them, if the run has a result. -/
def runResult (cfg : Config) (actions : List DriverAction) : Option State :=
  resultOf (endState actions (State.powerUp cfg))

/-- The commands among the driver's actions, decoded. -/
def commandsOf : List DriverAction → List Instr
  | [] => []
  | .command c :: rest => decode c :: commandsOf rest
  | .read _ :: rest => commandsOf rest

end Sys2Proof.Machine
end

