-- ==== Sys2Proof/Machine/Step.lean ====
section
/-! DEFINITION. One step: the driver's next action. A command is decoded and runs whole (20 R58, R60); a read runs
between commands (10 R36); with no action pending nothing happens, and every field keeps its value (60 R224). -/

namespace Sys2Proof.Machine

/-- One step of the machine (log 3). -/
def step (s : State) : Host.Outcome State Fault Refusal :=
  match nextAction s with
  | none => .next s
  | some (x, t) => runAction x t

/-- `s` with the command of an opcode-table word as the driver's next action, its side operands zeros. Of a number that does
not fit in 12 bits, which is no command word (30 R75), it takes the low 12 bits: the model's choice (log 13). -/
def State.withFetchWord (s : State) (nbits w : Nat) : State :=
  { s with input := .command { word := BitVec.ofNat 12 (w % 2 ^ nbits), ports := zeroPorts s.cfg } :: s.input }

end Sys2Proof.Machine
end

