-- ==== Sys2Proof/Machine/Pseudo.lean ====
section
/-! DEFINITION. The pseudo-instructions of 30 R81: each is a list of commands and adds no behaviour. -/

namespace Sys2Proof.Machine

/-- The three frame shapes that FEEDFRAME names (30 R81). -/
inductive FrameShape where
  | a
  | b
  | tx
deriving DecidableEq, Repr

/-- `SPEC_x` of a frame shape. -/
def shapeSpec (cfg : Config) : FrameShape → FrameSpec
  | .a => cfg.specA
  | .b => cfg.specB
  | .tx => cfg.specTx

/-- `FEED [b0, ..., bn-1]`: one STEP.B per byte (30 R81). -/
def feedAll (bytes : List Byte) : List Instr := bytes.map Instr.stepB

/-- `WAIT n`: `n` copies of STEP (30 R81). -/
def waitTicks (n : Nat) : List Instr := List.replicate n .step

/-- `FEEDFRAME x, [payload]`: the bytes of the frame built for the payload, one per tick (30 R81). -/
def feedFrame (cfg : Config) (x : FrameShape) (payload : List Byte) : Except Fault (List Instr) :=
  match build payload (shapeSpec cfg x) with
  | .error e => .error e
  | .ok f => .ok (feedAll f)

end Sys2Proof.Machine
end

