-- ==== Sys2Proof/Machine/Assembler.lean ====
section
/-! DEFINITION. The assembler lines of 30 R80 and R81: from the characters of one line to the commands it stands for.
The spec fixes the lines, not the corners of their syntax: every one settled here is the model's choice (log 15). -/

namespace Sys2Proof.Machine

/-- The tokens of a line. -/
inductive Token where
  | word (cs : List Char)
  | lbrack
  | rbrack
  | comma
  | dots
deriving DecidableEq, Repr

/-- The token of the characters gathered so far (latest first), if there are any. -/
def flushWord (acc : List Char) : List Token :=
  match acc with
  | [] => []
  | c :: cs => [.word (c :: cs).reverse]

/-- Split a line into tokens; a `;` starts a comment (30 R80). Spaces and tabs separate tokens, and are not needed beside
brackets, commas and `..` (the model's choice, log 15). -/
def tokens : List Char → List Char → List Token
  | [], acc => flushWord acc
  | '.' :: '.' :: cs, acc => flushWord acc ++ .dots :: tokens cs []
  | c :: cs, acc =>
    if c = ';' then flushWord acc
    else if c = ' ' ∨ c = '\t' then flushWord acc ++ tokens cs []
    else if c = '[' then flushWord acc ++ .lbrack :: tokens cs []
    else if c = ']' then flushWord acc ++ .rbrack :: tokens cs []
    else if c = ',' then flushWord acc ++ .comma :: tokens cs []
    else tokens cs (c :: acc)

/-- The value of a digit, hexadecimal digits included. -/
def digitValue (c : Char) : Option Nat :=
  if '0' ≤ c ∧ c ≤ '9' then some (c.toNat - 48)
  else if 'A' ≤ c ∧ c ≤ 'F' then some (c.toNat - 55)
  else if 'a' ≤ c ∧ c ≤ 'f' then some (c.toNat - 87)
  else none

/-- Digits of a base, most significant first, onto a value. -/
def digitsValue (base : Nat) : List Char → Nat → Option Nat
  | [], n => some n
  | c :: cs, n =>
    match digitValue c with
    | none => none
    | some k => if k < base then digitsValue base cs (n * base + k) else none

/-- A number in hex (`0xA0`) or decimal (30 R80). Digits of either case, leading zeros, and `0x` only in lower case: the
model's choice (log 15). -/
def numberOf : List Char → Option Nat
  | '0' :: 'x' :: c :: cs => digitsValue 16 (c :: cs) 0
  | [] => none
  | c :: cs => digitsValue 10 (c :: cs) 0

/-- A byte: a number below 256. -/
def byteOf (cs : List Char) : Option Byte :=
  match numberOf cs with
  | none => none
  | some n => if n < 256 then some (BitVec.ofNat 8 n) else none

/-- The ascending run `a..b` (30 R80). `a` above `b` is no run (the model's choice, log 15). -/
def byteRun (x y : List Char) : Option (List Byte) :=
  match byteOf x, byteOf y with
  | some a, some b =>
    if a.toNat ≤ b.toNat then
      some ((List.range (b.toNat + 1 - a.toNat)).map (fun k => BitVec.ofNat 8 (a.toNat + k)))
    else none
  | _, _ => none

/-- The inside of a byte sequence after its opening bracket, and the tokens after its closing one (30 R80). The empty
sequence `[]` and a comma before the closing bracket, as in `[1,]` for `[1]`, are accepted, and an empty item elsewhere is
not (the model's choice, log 15). -/
def byteItems : List Token → Option (List Byte × List Token)
  | .rbrack :: ts => some ([], ts)
  | .word x :: .dots :: .word y :: .comma :: ts =>
    match byteRun x y, byteItems ts with
    | some bs, some (cs, rest) => some (bs ++ cs, rest)
    | _, _ => none
  | .word x :: .dots :: .word y :: .rbrack :: ts =>
    match byteRun x y with
    | some bs => some (bs, ts)
    | none => none
  | .word x :: .comma :: ts =>
    match byteOf x, byteItems ts with
    | some b, some (cs, rest) => some (b :: cs, rest)
    | _, _ => none
  | .word x :: .rbrack :: ts =>
    match byteOf x with
    | some b => some ([b], ts)
    | none => none
  | _ => none

/-- A channel, written `A` or `B` (30 R80). -/
def channelOf (cs : List Char) : Option Channel :=
  if cs = ['A'] then some .a else if cs = ['B'] then some .b else none

/-- A frame shape of FEEDFRAME, written `A`, `B` or `TX` (30 R81). -/
def shapeOf (cs : List Char) : Option FrameShape :=
  if cs = ['A'] then some .a else if cs = ['B'] then some .b else if cs = ['T', 'X'] then some .tx else none

/-- The commands of a tokenised line: the six commands of 30 R80 and the three pseudo-instructions of R81. Any other line
has no commands to give and answers none: a blank or comment-only line, a mnemonic or channel in lower case, a missing or
an extra operand, a `FEEDFRAME` payload of a wrong length. The spec does not say so: it is the model's choice (log 15). -/
def lineOf (cfg : Config) : List Token → Option (List Instr)
  | [.word m] =>
    if m = ['S', 'T', 'E', 'P'] then some [.step]
    else if m = ['R', 'E', 'S', 'E', 'T'] then some [.reset]
    else none
  | [.word m, .word x] =>
    if m = ['S', 'T', 'E', 'P', '.', 'B'] then (byteOf x).map (fun b => [.stepB b])
    else if m = ['R', 'X', 'R', 'E', 'S', 'E', 'T'] then (channelOf x).map (fun c => [.rxreset c])
    else if m = ['W', 'A', 'I', 'T'] then (numberOf x).map waitTicks
    else none
  | .word m :: .lbrack :: ts =>
    match byteItems ts with
    | none => none
    | some (bs, rest) =>
      if m = ['T', 'X'] ∧ rest = [] then some [.tx bs]
      else if m = ['F', 'E', 'E', 'D'] ∧ rest = [] then some (feedAll bs)
      else if m = ['C', 'R', 'C'] then
        match rest with
        | [.comma, .word n] => (numberOf n).map (fun len => [.crc bs len])
        | _ => none
      else none
  | .word m :: .word x :: .comma :: .lbrack :: ts =>
    match byteItems ts, shapeOf x with
    | some (bs, []), some shape =>
      if m = ['F', 'E', 'E', 'D', 'F', 'R', 'A', 'M', 'E'] then
        match feedFrame cfg shape bs with
        | .ok is => some is
        | .error _ => none
      else none
    | _, _ => none
  | _ => none

/-- The commands of one assembler line, given by its characters. -/
def assembleLine (cfg : Config) (line : List Char) : Option (List Instr) := lineOf cfg (tokens line [])

end Sys2Proof.Machine
end

