-- ==== Sys2Proof/Machine/Events.lean ====
section
/-! DEFINITION. The error events of 60 R211 and the ones a command meets from a state: a reading of the meanings, on
which no meaning depends. -/

namespace Sys2Proof.Machine

/-- The error events of 60 R211. -/
inductive ErrorEvent where
  | headerMismatch
  | checksumMismatch
  | receiveTimeout
  | invalidPayloadLength
  | crcLengthOutOfRange
  | unwrittenRead
  | indexOutOfRange
  | reservedCommand
  | badConfiguration
deriving DecidableEq, Repr

/-- The code column of 60 R211 (D32). -/
def eventCode : ErrorEvent → Nat
  | .headerMismatch => 1
  | .checksumMismatch => 2
  | .receiveTimeout => 3
  | .invalidPayloadLength => 4
  | .crcLengthOutOfRange => 5
  | .unwrittenRead => 6
  | .indexOutOfRange => 7
  | .reservedCommand => 8
  | .badConfiguration => 9

/-- The event that a fault reason names (60 R211, codes 4 to 7). -/
def faultEvent : Fault → ErrorEvent
  | .invalidPayloadLength => .invalidPayloadLength
  | .crcLengthOutOfRange => .crcLengthOutOfRange
  | .unwrittenRead => .unwrittenRead
  | .indexOutOfRange => .indexOutOfRange

/-- The byte `b` fails the header match of the receiver it is routed to (60 R212). -/
def headerMismatch (b : Byte) (s : State) : Bool :=
  match (s.rx.get (route s)).state with
  | .idle => b != hi8 (s.cfg.spec (route s)).header
  | .starting => b != lo8 (s.cfg.spec (route s)).header
  | .receiving => false
  | .completed => false

/-- The byte `b` completes a frame whose CRC does not match (60 R213). -/
def checksumMismatch (b : Byte) (s : State) : Bool :=
  match feed (route s) b s with
  | .ok (true, t) =>
    match validate (t.cfg.spec (route s)) (t.rx.get (route s)) with
    | .ok false => true
    | _ => false
  | _ => false

/-- A tick with no byte fires the timeout (60 R214). -/
def timeoutDue (s : State) : Bool :=
  decide ((s.rx.get .a).state ≠ .idle) && decide (s.cfg.timeoutTicks ≤ (s.gapCounter + 1#32).toNat)

/-- The fault that a command body raises, as events. -/
def faultEvents (body : Except Fault State) : List ErrorEvent :=
  match body with
  | .ok _ => []
  | .error e => [faultEvent e]

/-- The error events that a command meets from a state in which commands run (60 R211, R220). -/
def errorEvents (i : Instr) (s : State) : List ErrorEvent :=
  match i with
  | .step => if timeoutDue s then [.receiveTimeout] else []
  | .stepB b =>
    (if headerMismatch b s then [.headerMismatch] else [])
      ++ (if checksumMismatch b s then [.checksumMismatch] else [])
      ++ faultEvents (stepByteCommand b s)
  | .rxreset _ => []
  | .tx payload => faultEvents (txCommand payload s)
  | .crc data len => faultEvents (checksumCommand data len s)
  | .reset => []
  | .reserved _ => [.reservedCommand]

end Sys2Proof.Machine
end

