-- ==== Sys2Proof/Safety.lean ====
section
/-! DEFINITION. What the statements speak of: a machine whose commands run, the invariants of 10 R23 to R39, and runs of
commands. -/

namespace Sys2Proof.Machine

/-- Neither a fault nor a refusal is recorded: commands have a step (60 R216, R217), and a run from power-up that ends here
has this state as its result (60 R229, `Sys2Proof.Machine.runResult`). -/
structure State.Running (s : State) : Prop where
  noFault : s.fault = none
  notRefused : s.refused = false

/-- The relation of `fill_count` to the state (10 R23). -/
def FillMatchesState (spec : FrameSpec) (r : Receiver) : Prop :=
  match r.state with
  | .idle => r.fillCount = 0#16
  | .starting => r.fillCount = 1#16
  | .receiving => 2 ≤ r.fillCount.toNat ∧ r.fillCount.toNat ≤ spec.totalSize - 1
  | .completed => r.fillCount.toNat = spec.totalSize

/-- What holds of a receiver at every command boundary (10 R23, R39; the store's canonical form and its bound, 20 R50). -/
structure Receiver.Ok (spec : FrameSpec) (r : Receiver) : Prop where
  fill : FillMatchesState spec r
  wf : Memory.wf r.buffer
  inStore : ∀ x ∈ r.buffer, x.1 < spec.totalSize
  written : ∀ i, i < r.fillCount.toNat → ∃ v, Memory.read r.buffer i = some v
  headerHigh : 1 ≤ r.fillCount.toNat → Memory.read r.buffer 0 = some (hi8 spec.header)
  headerLow : 2 ≤ r.fillCount.toNat → Memory.read r.buffer 1 = some (lo8 spec.header)

/-- What holds of a payload output buffer: inside its store, and written not at all or in full (20 R58, R63). -/
structure OutOk (spec : FrameSpec) (m : Memory) : Prop where
  wf : Memory.wf m
  inStore : ∀ x ∈ m, x.1 < payloadLength spec
  whole : m = [] ∨ ∀ i, i < payloadLength spec → ∃ v, Memory.read m i = some v

/-- A stats record whose counters fit in `STAT_W` bits (10 R25, R26). -/
structure Stats.Fit (cfg : Config) (x : Stats) : Prop where
  valid : x.valid ≤ statMax cfg
  invalid : x.invalid ≤ statMax cfg
  aborted : x.aborted ≤ statMax cfg

/-- The invariant of every command boundary. -/
structure State.Inv (s : State) : Prop where
  config : s.cfg.valid = true
  rxA : Receiver.Ok s.cfg.specA s.rx.a
  rxB : Receiver.Ok s.cfg.specB s.rx.b
  bNotCompleted : s.rx.b.state ≠ .completed
  gapWhileBusy : s.gapCounter ≠ 0#32 → s.rx.a.state ≠ .idle
  gapBound : s.gapCounter.toNat < s.cfg.timeoutTicks
  outA : OutOk s.cfg.specA s.out.a
  outB : OutOk s.cfg.specB s.out.b
  statsA : Stats.Fit s.cfg s.stats.a
  statsB : Stats.Fit s.cfg s.stats.b
  abortedB : s.stats.b.aborted = 0
  txWhole : s.cfg.specTx.totalSize ∣ s.txStream.length

/-- Commands one after another (20 R60), stopping at the first that answers no next state. The last may answer a next state
with `fault` or `refused` set: whether that state is a run's result is what `Sys2Proof.Machine.resultOf` says. -/
def execAll : List Instr → State → Host.Outcome State Fault Refusal
  | [], s => .next s
  | i :: is, s =>
    match exec i s with
    | .next t => execAll is t
    | .fault r => .fault r
    | .refused r => .refused r

/-- A byte stream with silence in it: before each byte, a number of ticks with no byte. -/
def feedWithGaps : List (Nat × Byte) → List Instr
  | [] => []
  | (gap, b) :: rest => waitTicks gap ++ .stepB b :: feedWithGaps rest

end Sys2Proof.Machine
end

