-- ==== Sys2Proof/Certificates/Slice0/Obligations.lean ====
section
/-! DEFINITION. The statements for the provers, from the numbered rules of the spec. Every statement is about every
configuration: the OPEN parameters are fields of `State.cfg`, and no statement rests on a free value. -/

open Sys2Proof Sys2Proof.Machine

namespace Sys2Proof.Statements

/-- One data bit into the CRC register, bit-serially: the bit is compared with bit 15, the register shifts left, and
the polynomial is added when they differ. -/
def serialBit (r : Word16) (bit : Bool) : Word16 :=
  if r.getLsbD 15 = bit then r <<< 1 else (r <<< 1) ^^^ 0x1021#16

/-- The eight bits of a byte, most significant first. -/
def bitsOf (d : Byte) : List Bool :=
  [d.getLsbD 7, d.getLsbD 6, d.getLsbD 5, d.getLsbD 4, d.getLsbD 3, d.getLsbD 2, d.getLsbD 1, d.getLsbD 0]

/-- Two states that agree on everything channel A and the ticks need: they may differ in channel B's receiver, stats,
timestamp and output buffer, in the transmit stream, in `crc_out`, and in what the driver does later. -/
structure AgreeOnA (s t : State) : Prop where
  cfg : s.cfg = t.cfg
  rxA : s.rx.a = t.rx.a
  gap : s.gapCounter = t.gapCounter
  tick : s.tickCounter = t.tickCounter
  statsA : s.stats.a = t.stats.a
  lastTsA : s.lastTs.a = t.lastTs.a
  outA : s.out.a = t.out.a

/-- No silence of `TIMEOUT_TICKS` before any byte of a stream. -/
def ShortGaps (cfg : Config) (stream : List (Nat × Byte)) : Prop := ∀ x ∈ stream, x.1 < cfg.timeoutTicks

/-- Every byte of both receive buffers and of both output buffers reads the same in two states. -/
def SameStores (s t : State) : Prop :=
  ∀ ch k, Memory.read (t.rx.get ch).buffer k = Memory.read (s.rx.get ch).buffer k
    ∧ Memory.read (t.out.get ch) k = Memory.read (s.out.get ch) k

end Sys2Proof.Statements

open Sys2Proof.Statements

/-! ### Encoding (30) -/

/-- R76: a word of each row of the command map, written out bit by bit from the row's pattern, decodes to the row's
command. -/
def Obligations.WordsOfTheCommandMapDecode : Prop :=
  ∀ p : SidePorts,
    decode { word := 0b000000000000#12, ports := p } = .step
    ∧ decode { word := 0b000110100000#12, ports := p } = .stepB 0xA0#8
    ∧ decode { word := 0b000111111111#12, ports := p } = .stepB 0xFF#8
    ∧ decode { word := 0b001000000000#12, ports := p } = .rxreset .a
    ∧ decode { word := 0b001000000001#12, ports := p } = .rxreset .b
    ∧ decode { word := 0b010000000000#12, ports := p } = .tx p.txPayload
    ∧ decode { word := 0b011000000000#12, ports := p } = .crc p.crcData p.crcLen
    ∧ decode { word := 0b111000000000#12, ports := p } = .reset

/-- Encoding an instruction and decoding the command gives the instruction back, with every operand: the byte of
STEP.B, the channel of RXRESET, the payload of TX, the data and length of CRC, and a reserved word. -/
def Obligations.DecodeInvertsEncode : Prop :=
  ∀ i : Instr, i.wf = true → decode (encode i) = i

/-- Every word, decoded and encoded again, is the same word: decoding drops no bit of the word. -/
def Obligations.EncodeInvertsDecodeOnWords : Prop :=
  ∀ c : Command, (encode (decode c)).word = c.word

/-- R78: a word decodes to `reserved` exactly when its `op` is 100, 101 or 110, or a bit that R75 says must be 0 is
not; it then carries that word, and running it refuses and leaves the core's state as it was. -/
def Obligations.ReservedExactlyOutsideTheMap : Prop :=
  ∀ c : Command,
    (reservedWord c.word = true → decode c = .reserved c.word
      ∧ ∀ s : State, s.Running → exec (decode c) s = .next { s with refused := true })
    ∧ (reservedWord c.word = false → ∀ w, decode c ≠ .reserved w)

/-- R81: the pseudo-instructions expand to the words given there. -/
def Obligations.PseudoInstructionsExpand : Prop :=
  (∀ bs : List Byte, (feedAll bs).map encodeWord = bs.map (fun b => 0x100#12 ||| b.setWidth 12))
  ∧ (∀ n : Nat, (waitTicks n).map encodeWord = List.replicate n 0x000#12)
  ∧ (∀ (cfg : Config) (x : FrameShape) (payload f : List Byte), build payload (shapeSpec cfg x) = .ok f →
      feedFrame cfg x payload = .ok (feedAll f))

/-- A line of each form of 30 R80 and R81 stands for its commands; the corners of the syntax are the model's (log 15). -/
def Obligations.AssemblerLinesStandForCommands : Prop :=
  ∀ cfg : Config,
    assembleLine cfg ['S', 'T', 'E', 'P'] = some [.step]
    ∧ assembleLine cfg ['S', 'T', 'E', 'P', '.', 'B', ' ', '0', 'x', 'A', '0', ' ', ';', 'x'] = some [.stepB 0xA0#8]
    ∧ assembleLine cfg ['R', 'X', 'R', 'E', 'S', 'E', 'T', ' ', 'A'] = some [.rxreset .a]
    ∧ assembleLine cfg ['R', 'X', 'R', 'E', 'S', 'E', 'T', ' ', 'B'] = some [.rxreset .b]
    ∧ assembleLine cfg ['C', 'R', 'C', ' ', '[', '1', '.', '.', '3', ',', '0', 'x', '0', '9', ']', ',', ' ', '2']
        = some [.crc [1#8, 2#8, 3#8, 9#8] 2]
    ∧ assembleLine cfg ['T', 'X', ' ', '[', '7', ']'] = some [.tx [7#8]]
    ∧ assembleLine cfg ['R', 'E', 'S', 'E', 'T'] = some [.reset]
    ∧ assembleLine cfg ['F', 'E', 'E', 'D', ' ', '[', '1', ',', '2', ']'] = some [.stepB 1#8, .stepB 2#8]
    ∧ assembleLine cfg ['W', 'A', 'I', 'T', ' ', '2'] = some [.step, .step]
    ∧ (∀ f : List Byte, build [1#8, 2#8] cfg.specA = .ok f →
        assembleLine cfg ['F', 'E', 'E', 'D', 'F', 'R', 'A', 'M', 'E', ' ', 'A', ',', ' ', '[', '1', '.', '.', '2', ']']
          = some (feedAll f))
    ∧ (∀ f : List Byte, build [7#8] cfg.specB = .ok f →
        assembleLine cfg ['F', 'E', 'E', 'D', 'F', 'R', 'A', 'M', 'E', ' ', 'B', ',', ' ', '[', '7', ']']
          = some (feedAll f))
    ∧ (∀ f : List Byte, build [1#8, 2#8] cfg.specTx = .ok f →
        assembleLine cfg ['F', 'E', 'E', 'D', 'F', 'R', 'A', 'M', 'E', ' ', 'T', 'X', ',', ' ', '[', '1', ',', '2', ']']
          = some (feedAll f))

/-! ### The step, the driver and the stop -/

/-- A step runs the decoded command: with a command as the driver's next action, the step is `exec` of what the word
and its ports decode to, on the state without that action; with no action nothing changes (the model's `input`, log 3);
and a word placed by `withFetchWord`, with side operands of zeros, is the next command (the model's choice, log 13). -/
def Obligations.StepRunsTheDecodedCommand : Prop :=
  (∀ (s : State) (c : Command) (rest : List DriverAction), s.input = .command c :: rest →
      step s = exec (decode c) { s with input := rest })
  ∧ (∀ s : State, s.input = [] → step s = .next s)
  ∧ (∀ (s : State) (nbits w : Nat), step (s.withFetchWord nbits w)
      = exec (decode { word := BitVec.ofNat 12 (w % 2 ^ nbits), ports := zeroPorts s.cfg }) s)

/-- Each pending action is used up by its step and by nothing else, and no command looks at what comes later (the
model's `input`, log 3). -/
def Obligations.StepConsumesOneAction : Prop :=
  (∀ (s t : State), step s = .next t → t.input = s.input.tail)
  ∧ (∀ (i : Instr) (s : State) (later : List DriverAction),
      (∀ t, exec i s = .next t → exec i { s with input := later } = .next { t with input := later })
      ∧ (∀ r, exec i s = .fault r → exec i { s with input := later } = .fault r)
      ∧ (∀ r, exec i s = .refused r → exec i { s with input := later } = .refused r))

/-- A driver read that gives a value changes nothing, and every field of the state record gives its value (10 R36). A
payload output byte the core has not written gives the driver's own byte, a free value (log 6); that a read is a step, on a
stopped machine too, is the model's (logs 3 and 12), and so is that a read outside a store gives `absent` (log 12); that
it changes nothing is 20 R59's. The reads that fault stand in `FaultingDriverReadsRecordTheirFault`. -/
def Obligations.DriverReadsHaveNoSideEffect : Prop :=
  (∀ (s : State) (o : Observable) (x : Reading), observe o s = .ok x → driverRead o s = s)
  ∧ (∀ (s : State) (o : Observable) (rest : List DriverAction), s.input = .read o :: rest →
      step s = .next (driverRead o { s with input := rest }))
  ∧ (∀ (s : State) (ch : Channel),
      observe (.spec ch) s = .ok (.spec (s.cfg.spec ch))
      ∧ observe (.receiverState ch) s = .ok (.state (s.rx.get ch).state)
      ∧ observe (.fillCount ch) s = .ok (.number (s.rx.get ch).fillCount.toNat)
      ∧ observe .gapCounter s = .ok (.number s.gapCounter.toNat)
      ∧ observe .tickCounter s = .ok (.number s.tickCounter.toNat)
      ∧ observe (.valid ch) s = .ok (.number (s.stats.get ch).valid)
      ∧ observe (.invalid ch) s = .ok (.number (s.stats.get ch).invalid)
      ∧ observe (.aborted ch) s = .ok (.number (s.stats.get ch).aborted)
      ∧ observe (.lastTs ch) s = .ok (.number (s.lastTs.get ch).toNat)
      ∧ (∀ v, s.crcOut = some v → observe .crcOut s = .ok (.number v.toNat))
      ∧ observe .txLength s = .ok (.number s.txStream.length)
      ∧ observe .fault s = .ok (.reason s.fault)
      ∧ observe .refused s = .ok (.flag s.refused))
  ∧ (∀ (s : State) (ch : Channel) (k : Nat) (v : Byte),
      (k < (s.cfg.spec ch).totalSize → Memory.read (s.rx.get ch).buffer k = some v →
        observe (.bufferByte ch k) s = .ok (.byte v))
      ∧ (k < payloadLength (s.cfg.spec ch) → Memory.read (s.out.get ch) k = some v →
        observe (.outByte ch k) s = .ok (.byte v))
      ∧ (k < payloadLength (s.cfg.spec ch) → Memory.read (s.out.get ch) k = none →
        observe (.outByte ch k) s = .ok (.byte (Config.driverOutByte ch k)))
      ∧ (s.txStream[k]? = some v → observe (.txByte k) s = .ok (.byte v)))
  ∧ (∀ (s : State) (ch : Channel) (k : Nat),
      ((s.cfg.spec ch).totalSize ≤ k → observe (.bufferByte ch k) s = .ok .absent)
      ∧ (payloadLength (s.cfg.spec ch) ≤ k → observe (.outByte ch k) s = .ok .absent)
      ∧ (s.txStream.length ≤ k → observe (.txByte k) s = .ok .absent))

/-- The driver reads that fault: a byte of a receive buffer never written (20 R52) and `crc_out` without a value (10 R32)
raise `UnwrittenRead`, and a driver read raises no other fault. Such a read records its reason where none is recorded
(DEDUCED, log 12) and changes nothing where one is (log 11). -/
def Obligations.FaultingDriverReadsRecordTheirFault : Prop :=
  (∀ (s : State) (ch : Channel) (k : Nat), k < (s.cfg.spec ch).totalSize →
      Memory.read (s.rx.get ch).buffer k = none → observe (.bufferByte ch k) s = .error .unwrittenRead)
  ∧ (∀ s : State, s.crcOut = none → observe .crcOut s = .error .unwrittenRead)
  ∧ (∀ (s : State) (o : Observable) (e : Fault), observe o s = .error e → e = .unwrittenRead
      ∧ ((∃ ch k, o = .bufferByte ch k ∧ k < (s.cfg.spec ch).totalSize ∧ Memory.read (s.rx.get ch).buffer k = none)
          ∨ (o = .crcOut ∧ s.crcOut = none))
      ∧ (s.fault = none → driverRead o s = { s with fault := some e })
      ∧ (s.fault ≠ none → driverRead o s = s))

/-- R32: `crc_out` holds the result of the last CRC command and no value at power-up and after RESET, and no other
command writes it; a read of it with no value faults. -/
def Obligations.CrcOutReadFaultsWithoutValue : Prop :=
  (∀ cfg : Config, (State.powerUp cfg).crcOut = none)
  ∧ (∀ s t : State, s.Running → exec .reset s = .next t → t.crcOut = none)
  ∧ (∀ (s t : State) (data : List Byte) (len : Nat), s.Running → len ≤ data.length →
      exec (.crc data len) s = .next t → t.crcOut = some (crcBytes 0xFFFF#16 (data.take len)))
  ∧ (∀ (i : Instr) (s t : State), i ≠ .reset → (∀ data len, i ≠ .crc data len) → exec i s = .next t →
      t.crcOut = s.crcOut)
  ∧ (∀ s : State, s.crcOut = none → observe .crcOut s = .error .unwrittenRead)
  ∧ (∀ (s : State) (v : Word16), s.crcOut = some v → observe .crcOut s = .ok (.number v.toNat))

/-- R216: a command that raises a fault performs none of its writes and records the reason; a recorded fault is never
cleared, and once it is recorded no command has a step. -/
def Obligations.FaultsAreRecordedWholeAndSticky : Prop :=
  (∀ (i : Instr) (s t : State) (r : Fault), exec i s = .next t → t.fault = some r →
      s.fault = none ∧ t = { s with fault := some r })
  ∧ (∀ (i : Instr) (s t : State), s.fault ≠ none → exec i s ≠ .next t)
  ∧ (∀ s t : State, s.fault ≠ none → step s = .next t → t.fault ≠ none)

/-- R217: a reserved command writes nothing but `refused`; a configuration out of range is refused at power-up, before
the first command; `refused` is never cleared, and once it is set no command has a step. -/
def Obligations.RefusalsAreRecordedAndSticky : Prop :=
  (∀ (w : CommandWord) (s : State), s.Running → exec (.reserved w) s = .next { s with refused := true })
  ∧ (∀ cfg : Config, cfg.valid = false → (State.powerUp cfg).refused = true)
  ∧ (∀ (cfg : Config) (i : Instr) (t : State), cfg.valid = false → exec i (State.powerUp cfg) ≠ .next t)
  ∧ (∀ (i : Instr) (s t : State), s.refused = true → exec i s ≠ .next t)
  ∧ (∀ s t : State, s.refused = true → step s = .next t → t.refused = true)

/-- What a stopped machine answers: every command answers the recorded fault; with none recorded and `refused` set it is
refused, as a bad configuration where the configuration is out of range and as a reserved command otherwise; and the first
fault recorded stays. The spec says only that no command has a step: these answers are the model's (logs 1, 2 and 11).

And what a run leaves (R229): a run of commands after power-up has a result exactly where the state after the last command
has neither `fault` nor `refused` set, and the result is that state; reads between the commands do not change it; a run
without a result has none however it goes on. As steps of the machine, a run with a result is the driver's actions placed in
the model's `input` at power-up (log 3), one step each. -/
def Obligations.StoppedMachinesAnswerTheirReason : Prop :=
  (∀ (i : Instr) (s : State) (r : Fault), s.fault = some r → exec i s = .fault r)
  ∧ (∀ (i : Instr) (s : State), s.fault = none → s.refused = true →
      (s.cfg.valid = false → exec i s = .refused .badConfiguration)
      ∧ (s.cfg.valid = true → exec i s = .refused .reservedCommand))
  ∧ (∀ (s t : State) (r : Fault), s.fault = some r → step s = .next t → t.fault = some r)
  ∧ (∀ (cfg : Config) (commands : List Command) (t : State),
      runResult cfg (commands.map .command) = some t ↔
        execAll (commands.map decode) (State.powerUp cfg) = .next t ∧ t.fault = none ∧ t.refused = false)
  ∧ (∀ (cfg : Config) (actions : List DriverAction) (t : State), runResult cfg actions = some t →
      execAll (commandsOf actions) (State.powerUp cfg) = .next t)
  ∧ (∀ (cfg : Config) (actions later : List DriverAction),
      runResult cfg actions = none → runResult cfg (actions ++ later) = none)
  ∧ (∀ (cfg : Config) (actions : List DriverAction) (t : State),
      runResult cfg actions = some t ↔
        Host.Core.run core actions.length { State.powerUp cfg with input := actions } = .next t
          ∧ t.fault = none ∧ t.refused = false)

/-! ### Reset and power-up (10, 70) -/

/-- R41: the state at power-up, and the state after RESET where the table gives RESET a value; where it says
"unchanged" or "not written", RESET leaves the field. -/
def Obligations.ResetValuesHold : Prop :=
  (∀ (cfg : Config) (ch : Channel), cfg.valid = true →
      ((State.powerUp cfg).rx.get ch).state = .idle
      ∧ ((State.powerUp cfg).rx.get ch).fillCount = 0#16
      ∧ (∀ k, Memory.read ((State.powerUp cfg).rx.get ch).buffer k = none)
      ∧ (State.powerUp cfg).gapCounter = 0#32
      ∧ (State.powerUp cfg).tickCounter = 0#64
      ∧ (State.powerUp cfg).stats.get ch = { valid := 0, invalid := 0, aborted := 0 }
      ∧ (State.powerUp cfg).lastTs.get ch = 0#64
      ∧ (∀ k, Memory.read ((State.powerUp cfg).out.get ch) k = none)
      ∧ (State.powerUp cfg).txStream = []
      ∧ (State.powerUp cfg).crcOut = none
      ∧ (State.powerUp cfg).fault = none
      ∧ (State.powerUp cfg).refused = false)
  ∧ (∀ (s : State) (ch : Channel), s.Running → ∃ t, exec .reset s = .next t
      ∧ (t.rx.get ch).state = .idle
      ∧ (t.rx.get ch).fillCount = 0#16
      ∧ (t.rx.get ch).buffer = (s.rx.get ch).buffer
      ∧ t.gapCounter = 0#32
      ∧ t.tickCounter = 0#64
      ∧ t.stats.get ch = { valid := 0, invalid := 0, aborted := 0 }
      ∧ t.lastTs.get ch = 0#64
      ∧ t.out.get ch = s.out.get ch
      ∧ t.txStream = s.txStream
      ∧ t.crcOut = none
      ∧ t.fault = s.fault
      ∧ t.refused = s.refused)

/-- R240: RESET's word, and what it leaves, whole. -/
def Obligations.ResetReinitialisesTheLink : Prop :=
  encodeWord .reset = 0xE00#12 ∧ ∀ s : State, s.Running →
    exec .reset s = .next
      { s with
        rx := { a := { s.rx.a with state := .idle, fillCount := 0#16 },
                b := { s.rx.b with state := .idle, fillCount := 0#16 } }
        gapCounter := 0#32
        tickCounter := 0#64
        stats := { a := { valid := 0, invalid := 0, aborted := 0 }, b := { valid := 0, invalid := 0, aborted := 0 } }
        lastTs := { a := 0#64, b := 0#64 }
        crcOut := none }

/-- The host's reset state is the power-up state of a configuration in range, with the default shapes and widths of the
spec; the OPEN parameters and the empty driver input are the model's (logs 3 and 5). -/
def Obligations.HostResetIsAPowerUp : Prop :=
  core.reset = State.powerUp Config.default
  ∧ Config.default.valid = true
  ∧ Config.default.specA = { header := 0xA0A5#16, totalSize := 30 }
  ∧ Config.default.specB = { header := 0xAA55#16, totalSize := 160 }
  ∧ Config.default.specTx = { header := 0x5AD5#16, totalSize := 34 }
  ∧ Config.default.statW = 32

/-! ### The invariant -/

/-- The invariant holds at the reset state and at every power-up under a configuration in range. -/
def Obligations.ResetMeetsTheInvariant : Prop :=
  State.reset.Inv ∧ ∀ cfg : Config, cfg.valid = true → (State.powerUp cfg).Inv

/-- Every step keeps the invariant: fill counts match states, the accepted bytes are written and begin with the header,
the stores keep their canonical form and bounds, B is never left `Completed`, the gap counter stays below the threshold
and is 0 while A is `Idle`, output buffers are written not at all or in full, counters fit, `stats[B].aborted` is 0. -/
def Obligations.EveryStepKeepsTheInvariant : Prop :=
  ∀ s t : State, s.Inv → step s = .next t → t.Inv

/-- R34: no command and no driver read changes the configuration, and one outside the ranges (00 R9 to R11, the parameter
table of 92) is refused before any command runs. -/
def Obligations.ConfigurationNeverChanges : Prop :=
  (∀ cfg : Config, cfg.valid = true ↔
      (∀ f ∈ [cfg.specA, cfg.specB, cfg.specTx], 4 ≤ f.totalSize ∧ f.totalSize ≤ 65535)
      ∧ 1 ≤ cfg.timeoutTicks ∧ cfg.timeoutTicks ≤ 2 ^ 32 - 1 ∧ 1 ≤ cfg.statW)
  ∧ (∀ s t : State, step s = .next t → t.cfg = s.cfg)
  ∧ (∀ (cfg : Config) (i : Instr) (t : State), cfg.valid = false →
      (State.powerUp cfg).refused = true ∧ exec i (State.powerUp cfg) ≠ .next t)

/-- The ordering of the channels (10, section 4): unless a timeout fires while A is `Completed` or RXRESET is issued, a
command keeps "B has begun a frame only while A is Completed". -/
def Obligations.ChannelBBusyOnlyAfterA : Prop :=
  ∀ (i : Instr) (s t : State), s.Inv → exec i s = .next t →
    (s.rx.b.state ≠ .idle → s.rx.a.state = .completed) →
    (∀ c, i ≠ .rxreset c) →
    ¬ (i = .step ∧ s.rx.a.state = .completed ∧ s.cfg.timeoutTicks ≤ s.gapCounter.toNat + 1) →
    t.rx.b.state ≠ .idle → t.rx.a.state = .completed

/-! ### STEP (42) -/

/-- R151: STEP's word, and its next state by the state of A and the threshold, the timeout abort of R152 included. -/
def Obligations.StepCountsGapsAndTimesOut : Prop :=
  encodeWord .step = 0x000#12 ∧ ∀ s : State, s.Running →
    (s.rx.a.state = .idle → exec .step s = .next { s with tickCounter := s.tickCounter + 1#64 })
    ∧ (s.rx.a.state ≠ .idle → (s.gapCounter + 1#32).toNat < s.cfg.timeoutTicks →
        exec .step s = .next { s with tickCounter := s.tickCounter + 1#64, gapCounter := s.gapCounter + 1#32 })
    ∧ (s.rx.a.state ≠ .idle → s.cfg.timeoutTicks ≤ (s.gapCounter + 1#32).toNat →
        exec .step s = .next
          { s with
            tickCounter := s.tickCounter + 1#64
            gapCounter := 0#32
            rx := { s.rx with a := { s.rx.a with state := .idle, fillCount := 0#16 } }
            stats := { s.stats with a := { s.stats.a with aborted := inc s.cfg s.stats.a.aborted } } })

/-- What STEP leaves alone: all of channel B, every byte of every store, the completion counts of A, the timestamps,
`tx_stream`, `crc_out`, `fault` and `refused`. -/
def Obligations.StepFrame : Prop :=
  ∀ s t : State, exec .step s = .next t →
    SameStores s t ∧ t.rx.b = s.rx.b ∧ t.stats.b = s.stats.b ∧ t.stats.a.valid = s.stats.a.valid
    ∧ t.stats.a.invalid = s.stats.a.invalid ∧ t.lastTs = s.lastTs ∧ t.txStream = s.txStream
    ∧ t.crcOut = s.crcOut ∧ t.fault = s.fault ∧ t.refused = s.refused ∧ t.cfg = s.cfg ∧ t.input = s.input

/-- The timeout over a silence (42 section 4, R163; 70 section 3): from a state with A busy and no gap counted, fewer
than `TIMEOUT_TICKS` STEPs leave both receivers and the stats as they were, and that many or more abort A exactly once
and leave B as it was. -/
def Obligations.SilenceAbortsExactlyOnce : Prop :=
  ∀ s : State, s.Inv → s.Running → s.rx.a.state ≠ .idle → s.gapCounter = 0#32 →
    (∀ n, n < s.cfg.timeoutTicks → ∃ t, execAll (waitTicks n) s = .next t
      ∧ t.rx = s.rx ∧ t.stats = s.stats ∧ t.gapCounter.toNat = n)
    ∧ (∀ n, s.cfg.timeoutTicks ≤ n → ∃ t, execAll (waitTicks n) s = .next t
      ∧ t.stats.a = { s.stats.a with aborted := inc s.cfg s.stats.a.aborted }
      ∧ t.rx.a.state = .idle ∧ t.rx.a.fillCount = 0#16 ∧ t.gapCounter = 0#32
      ∧ t.rx.b = s.rx.b ∧ t.stats.b = s.stats.b ∧ t.out = s.out)

/-! ### The receiver (41) -/

/-- R122 to R124, and the ignored byte of `Completed`: the feed of one byte, by the receiver's state, with the fill count that state has (R23). -/
def Obligations.FeedFollowsTheReceiverStates : Prop :=
  ∀ (spec : FrameSpec) (r : Receiver) (b : Byte), 4 ≤ spec.totalSize → spec.totalSize ≤ 65535 →
    FillMatchesState spec r →
    (r.state = .idle → b = hi8 spec.header → feedReceiver spec b r
      = .ok (false, { state := .starting, buffer := Memory.write r.buffer 0 b, fillCount := 1#16 }))
    ∧ (r.state = .idle → b ≠ hi8 spec.header → feedReceiver spec b r = .ok (false, r))
    ∧ (r.state = .starting → b = lo8 spec.header → feedReceiver spec b r
      = .ok (false, { state := .receiving, buffer := Memory.write r.buffer 1 b, fillCount := 2#16 }))
    ∧ (r.state = .starting → b ≠ lo8 spec.header → feedReceiver spec b r
      = .ok (false, { state := .idle, buffer := r.buffer, fillCount := 0#16 }))
    ∧ (r.state = .receiving → r.fillCount.toNat + 1 ≠ spec.totalSize → feedReceiver spec b r
      = .ok (false, { state := .receiving, buffer := Memory.write r.buffer r.fillCount.toNat b,
                      fillCount := r.fillCount + 1#16 }))
    ∧ (r.state = .receiving → r.fillCount.toNat + 1 = spec.totalSize → feedReceiver spec b r
      = .ok (true, { state := .completed, buffer := Memory.write r.buffer r.fillCount.toNat b,
                     fillCount := r.fillCount + 1#16 }))
    ∧ (r.state = .completed → feedReceiver spec b r = .ok (false, r))

/-- R127: RXRESET's words, its next state for each channel, and that it changes nothing where the receiver is already
`Idle`, in a state that meets the invariant. -/
def Obligations.RxresetResetsOneReceiver : Prop :=
  encodeWord (.rxreset .a) = 0x200#12 ∧ encodeWord (.rxreset .b) = 0x201#12 ∧ ∀ s : State, s.Running →
    (∀ c : Channel, s.Inv → (s.rx.get c).state = .idle → exec (.rxreset c) s = .next s)
    ∧ exec (.rxreset .a) s = .next
      { s with
        rx := { s.rx with a := { s.rx.a with state := .idle, fillCount := 0#16 } }
        gapCounter := 0#32 }
    ∧ exec (.rxreset .b) s = .next
      { s with rx := { s.rx with b := { s.rx.b with state := .idle, fillCount := 0#16 } } }

/-- What RXRESET, RESET and a reserved word leave alone: every byte of every store, `tx_stream`, and what else each
does not write. -/
def Obligations.ControlCommandFrames : Prop :=
  (∀ (c : Channel) (s t : State), exec (.rxreset c) s = .next t →
      SameStores s t ∧ (∀ ch, ch ≠ c → t.rx.get ch = s.rx.get ch) ∧ (c = .b → t.gapCounter = s.gapCounter)
      ∧ t.tickCounter = s.tickCounter ∧ t.stats = s.stats ∧ t.lastTs = s.lastTs ∧ t.txStream = s.txStream
      ∧ t.crcOut = s.crcOut ∧ t.fault = s.fault ∧ t.refused = s.refused ∧ t.cfg = s.cfg ∧ t.input = s.input)
  ∧ (∀ s t : State, exec .reset s = .next t →
      SameStores s t ∧ t.txStream = s.txStream ∧ t.fault = s.fault ∧ t.refused = s.refused ∧ t.cfg = s.cfg
      ∧ t.input = s.input)
  ∧ (∀ (w : CommandWord) (s t : State), exec (.reserved w) s = .next t →
      SameStores s t ∧ t = { s with refused := t.refused })

/-- RXRESET A and RXRESET B commute, from every state (70 section 3). -/
def Obligations.RxresetsCommute : Prop :=
  ∀ s : State, execAll [.rxreset .a, .rxreset .b] s = execAll [.rxreset .b, .rxreset .a] s

/-! ### STEP.B (42) -/

/-- R154: `route()` is B when A is `Completed` and A otherwise, whatever the rest of the state is. -/
def Obligations.RouteReadsOnlyChannelA : Prop :=
  ∀ s : State, (s.rx.a.state = .completed → route s = .b) ∧ (s.rx.a.state ≠ .completed → route s = .a)

/-- STEP.B with a feed that does not complete a frame (42 R153): tick, gap cleared, the routed receiver fed, nothing
else. -/
def Obligations.StepBFeedsTheRoutedReceiver : Prop :=
  ∀ (s : State) (b : Byte) (r : Receiver), s.Running →
    feedReceiver (s.cfg.spec (route s)) b (s.rx.get (route s)) = .ok (false, r) →
    exec (.stepB b) s = .next
      { s with
        tickCounter := s.tickCounter + 1#64
        gapCounter := 0#32
        rx := s.rx.set (route s) r }

/-- The hunt for the header through STEP.B (41 R122, R123): a first header byte starts, a second one locks, any other
byte is dropped, also a first header byte where the second was due. -/
def Obligations.StepBHuntsForTheHeader : Prop :=
  ∀ (s : State) (b : Byte), s.Inv → s.Running →
    ((s.rx.get (route s)).state = .idle → b = hi8 (s.cfg.spec (route s)).header →
      exec (.stepB b) s = .next
        { s with tickCounter := s.tickCounter + 1#64, gapCounter := 0#32,
                 rx := s.rx.set (route s) { state := .starting,
                                            buffer := Memory.write (s.rx.get (route s)).buffer 0 b,
                                            fillCount := 1#16 } })
    ∧ ((s.rx.get (route s)).state = .idle → b ≠ hi8 (s.cfg.spec (route s)).header →
      exec (.stepB b) s = .next { s with tickCounter := s.tickCounter + 1#64, gapCounter := 0#32 })
    ∧ ((s.rx.get (route s)).state = .starting → b = lo8 (s.cfg.spec (route s)).header →
      exec (.stepB b) s = .next
        { s with tickCounter := s.tickCounter + 1#64, gapCounter := 0#32,
                 rx := s.rx.set (route s) { state := .receiving,
                                            buffer := Memory.write (s.rx.get (route s)).buffer 1 b,
                                            fillCount := 2#16 } })
    ∧ ((s.rx.get (route s)).state = .starting → b ≠ lo8 (s.cfg.spec (route s)).header →
      exec (.stepB b) s = .next
        { s with tickCounter := s.tickCounter + 1#64, gapCounter := 0#32,
                 rx := s.rx.set (route s) { state := .idle, buffer := (s.rx.get (route s)).buffer,
                                            fillCount := 0#16 } })

/-- R157: the byte that completes a frame whose trailing CRC matches. The whole payload is copied, the
timestamp is this tick's, `valid` is counted, and a completion of B resets both receivers while one of A leaves A
`Completed`. -/
def Obligations.ValidFrameIsDelivered : Prop :=
  ∀ (s : State) (b x : Byte) (payload : List Byte), s.Inv → s.Running →
    (s.rx.get (route s)).state = .receiving →
    (s.rx.get (route s)).fillCount.toNat + 1 = (s.cfg.spec (route s)).totalSize →
    payload.length = payloadLength (s.cfg.spec (route s)) →
    (∀ k, k < (s.rx.get (route s)).fillCount.toNat → Memory.read (s.rx.get (route s)).buffer k
      = (hi8 (s.cfg.spec (route s)).header :: lo8 (s.cfg.spec (route s)).header :: payload ++ [x])[k]?) →
    be16 x b = crcBytes 0xFFFF#16
      (hi8 (s.cfg.spec (route s)).header :: lo8 (s.cfg.spec (route s)).header :: payload) →
    ∃ m : Memory, Memory.wf m ∧ (∀ k, Memory.read m k = payload[k]?) ∧
      exec (.stepB b) s = .next
        { s with
          tickCounter := s.tickCounter + 1#64
          gapCounter := 0#32
          out := s.out.set (route s) m
          lastTs := s.lastTs.set (route s) (s.tickCounter + 1#64)
          stats := s.stats.set (route s)
            { s.stats.get (route s) with valid := inc s.cfg (s.stats.get (route s)).valid }
          rx :=
            match route s with
            | .a => { s.rx with
                      a := { state := .completed, buffer := Memory.write s.rx.a.buffer s.rx.a.fillCount.toNat b,
                             fillCount := s.rx.a.fillCount + 1#16 } }
            | .b => { a := { s.rx.a with state := .idle, fillCount := 0#16 },
                      b := { state := .idle, buffer := Memory.write s.rx.b.buffer s.rx.b.fillCount.toNat b,
                             fillCount := 0#16 } } }

/-- R158: the byte that completes a frame whose trailing CRC does not match. `invalid` is counted; no payload
and no timestamp. -/
def Obligations.InvalidFrameIsCountedAndDiscarded : Prop :=
  ∀ (s : State) (b x : Byte) (body : List Byte), s.Inv → s.Running →
    (s.rx.get (route s)).state = .receiving →
    (s.rx.get (route s)).fillCount.toNat + 1 = (s.cfg.spec (route s)).totalSize →
    body.length + 2 = (s.cfg.spec (route s)).totalSize →
    (∀ k, k < (s.rx.get (route s)).fillCount.toNat →
      Memory.read (s.rx.get (route s)).buffer k = (body ++ [x])[k]?) →
    be16 x b ≠ crcBytes 0xFFFF#16 body →
    exec (.stepB b) s = .next
      { s with
        tickCounter := s.tickCounter + 1#64
        gapCounter := 0#32
        stats := s.stats.set (route s)
          { s.stats.get (route s) with invalid := inc s.cfg (s.stats.get (route s)).invalid }
        rx :=
          match route s with
          | .a => { s.rx with
                    a := { state := .completed, buffer := Memory.write s.rx.a.buffer s.rx.a.fillCount.toNat b,
                           fillCount := s.rx.a.fillCount + 1#16 } }
          | .b => { a := { s.rx.a with state := .idle, fillCount := 0#16 },
                    b := { state := .idle, buffer := Memory.write s.rx.b.buffer s.rx.b.fillCount.toNat b,
                           fillCount := 0#16 } } }

/-- R156 and R159: the byte that completes a frame, whatever the frame holds. The comparison of its trailing CRC with
the CRC of everything before it decides which counter is counted; then a completion of A leaves A `Completed` and B as it
was, and one of B resets both. -/
def Obligations.CompletionValidatesThenRearms : Prop :=
  ∀ (s : State) (b : Byte) (taken : List Byte), s.Inv → s.Running → (s.rx.get (route s)).state = .receiving →
    taken.length = (s.rx.get (route s)).fillCount.toNat → taken.length + 1 = (s.cfg.spec (route s)).totalSize →
    (∀ k, k < taken.length → Memory.read (s.rx.get (route s)).buffer k = taken[k]?) →
    ∃ (t : State) (x y : Byte) (computed : Word16), exec (.stepB b) s = .next t
      ∧ (taken ++ [b])[(s.cfg.spec (route s)).totalSize - 2]? = some x
      ∧ (taken ++ [b])[(s.cfg.spec (route s)).totalSize - 1]? = some y
      ∧ crc16 (taken ++ [b]) ((s.cfg.spec (route s)).totalSize - 2) = .ok computed
      ∧ (be16 x y = computed → t.stats = s.stats.set (route s)
          { s.stats.get (route s) with valid := inc s.cfg (s.stats.get (route s)).valid })
      ∧ (be16 x y ≠ computed → t.stats = s.stats.set (route s)
          { s.stats.get (route s) with invalid := inc s.cfg (s.stats.get (route s)).invalid })
      ∧ (route s = .a → t.rx.a.state = .completed ∧ t.rx.a.fillCount.toNat = s.cfg.specA.totalSize ∧ t.rx.b = s.rx.b)
      ∧ (route s = .b → t.rx.a = { s.rx.a with state := .idle, fillCount := 0#16 }
          ∧ t.rx.b.state = .idle ∧ t.rx.b.fillCount = 0#16)
      ∧ t.gapCounter = 0#32

/-- STEP and STEP.B never fault and never refuse (60 section 2), from every state that meets the invariant and has no
fault or refusal recorded. -/
def Obligations.TicksAlwaysComplete : Prop :=
  ∀ s : State, s.Inv → s.Running →
    (∃ t, exec .step s = .next t ∧ t.Running ∧ t.tickCounter = s.tickCounter + 1#64)
    ∧ (∀ b : Byte, ∃ t, exec (.stepB b) s = .next t ∧ t.Running
        ∧ t.tickCounter = s.tickCounter + 1#64 ∧ t.gapCounter = 0#32)

/-- What STEP.B leaves alone. Of the receive buffers it stores one byte at most, of the routed channel at its
`fill_count`; it writes an output buffer or a timestamp only of that channel, with its `valid` count and the new tick;
everything of the other channel stays but for the reset of A when the byte completes B. -/
def Obligations.StepBFrame : Prop :=
  ∀ (b : Byte) (s t : State), exec (.stepB b) s = .next t →
    (∀ ch k, ¬ (ch = route s ∧ k = (s.rx.get (route s)).fillCount.toNat) →
      Memory.read (t.rx.get ch).buffer k = Memory.read (s.rx.get ch).buffer k)
    ∧ (∀ ch k, ¬ (ch = route s ∧ k < payloadLength (s.cfg.spec ch)) →
      Memory.read (t.out.get ch) k = Memory.read (s.out.get ch) k)
    ∧ (∀ ch, t.out.get ch ≠ s.out.get ch → ch = route s
        ∧ (t.stats.get ch).valid = inc s.cfg (s.stats.get ch).valid ∧ t.lastTs.get ch = s.tickCounter + 1#64)
    ∧ (∀ ch, t.lastTs.get ch ≠ s.lastTs.get ch → ch = route s
        ∧ (t.stats.get ch).valid = inc s.cfg (s.stats.get ch).valid ∧ t.lastTs.get ch = s.tickCounter + 1#64)
    ∧ (∀ ch, ch ≠ route s → t.stats.get ch = s.stats.get ch)
    ∧ (∀ ch, (t.stats.get ch).aborted = (s.stats.get ch).aborted)
    ∧ (t.rx.b = s.rx.b ∨ route s = .b)
    ∧ (t.rx.a = s.rx.a ∨ route s = .a
        ∨ (route s = .b ∧ (∃ r, feedReceiver s.cfg.specB b s.rx.b = .ok (true, r))
            ∧ t.rx.a = { s.rx.a with state := .idle, fillCount := 0#16 }))
    ∧ t.txStream = s.txStream ∧ t.crcOut = s.crcOut ∧ t.refused = s.refused ∧ t.cfg = s.cfg ∧ t.input = s.input

/-- Channel B sees a byte only while A is `Completed` (42 section 4). -/
def Obligations.ChannelBUntouchedUntilAIsComplete : Prop :=
  ∀ (b : Byte) (s t : State), s.rx.a.state ≠ .completed → exec (.stepB b) s = .next t →
    t.rx.b = s.rx.b ∧ t.stats.b = s.stats.b ∧ t.out.b = s.out.b ∧ t.lastTs.b = s.lastTs.b

/-- R212: a byte that fails the header match is recovered silently: the command goes on, and no counter, timestamp,
output or fault records it. -/
def Obligations.HeaderMismatchLeavesNoTrace : Prop :=
  ∀ (b : Byte) (s : State), s.Inv → s.Running → headerMismatch b s = true →
    ∃ t, exec (.stepB b) s = .next t ∧ t.stats = s.stats ∧ t.lastTs = s.lastTs ∧ t.out = s.out
      ∧ t.txStream = s.txStream ∧ t.crcOut = s.crcOut ∧ t.fault = none ∧ t.refused = false
      ∧ (t.rx.get (route s)).state = .idle ∧ (t.rx.get (route s)).fillCount = 0#16
      ∧ SameStores s t

/-! ### Counters (10) -/

/-- R26: every write to a stats counter is `Inc`, but for the zeros of RESET; and `Inc` is one more below the maximum
and follows `STAT_OVERFLOW` at it. -/
def Obligations.CounterWritesAreInc : Prop :=
  (∀ (cfg : Config) (c : Nat), c < 2 ^ cfg.statW - 1 → inc cfg c = c + 1)
  ∧ (∀ cfg : Config, cfg.statOverflow = .wrap → inc cfg (2 ^ cfg.statW - 1) = 0)
  ∧ (∀ cfg : Config, cfg.statOverflow = .saturate → inc cfg (2 ^ cfg.statW - 1) = 2 ^ cfg.statW - 1)
  ∧ (∀ (i : Instr) (s t : State) (ch : Channel), exec i s = .next t → i ≠ .reset →
      ((t.stats.get ch).valid = (s.stats.get ch).valid ∨ (t.stats.get ch).valid = inc s.cfg (s.stats.get ch).valid)
      ∧ ((t.stats.get ch).invalid = (s.stats.get ch).invalid
          ∨ (t.stats.get ch).invalid = inc s.cfg (s.stats.get ch).invalid)
      ∧ ((t.stats.get ch).aborted = (s.stats.get ch).aborted
          ∨ (ch = .a ∧ i = .step ∧ (t.stats.get ch).aborted = inc s.cfg (s.stats.get ch).aborted)))

/-- Below the maximum, counters only grow (10 section 1), but for RESET. -/
def Obligations.CountersOnlyGrowBelowTheMaximum : Prop :=
  ∀ (i : Instr) (s t : State) (ch : Channel), i ≠ .reset → exec i s = .next t →
    (s.stats.get ch).valid < statMax s.cfg → (s.stats.get ch).invalid < statMax s.cfg →
    (s.stats.get ch).aborted < statMax s.cfg →
    (s.stats.get ch).valid ≤ (t.stats.get ch).valid ∧ (s.stats.get ch).invalid ≤ (t.stats.get ch).invalid
    ∧ (s.stats.get ch).aborted ≤ (t.stats.get ch).aborted
    ∧ (t.stats.get ch).valid + (t.stats.get ch).invalid + (t.stats.get ch).aborted
        ≤ (s.stats.get ch).valid + (s.stats.get ch).invalid + (s.stats.get ch).aborted + 1

/-- R27: `tick_counter` counts STEP and STEP.B commands modulo 2^64; TX, CRC, RXRESET and a reserved word leave it,
and RESET clears it. -/
def Obligations.TickCountsTicksOnly : Prop :=
  ∀ (i : Instr) (s t : State), s.Inv → exec i s = .next t →
    t.tickCounter.toNat =
      match i with
      | .step => (s.tickCounter.toNat + 1) % 2 ^ 64
      | .stepB _ => (s.tickCounter.toNat + 1) % 2 ^ 64
      | .reset => 0
      | .rxreset _ => s.tickCounter.toNat
      | .tx _ => s.tickCounter.toNat
      | .crc _ _ => s.tickCounter.toNat
      | .reserved _ => s.tickCounter.toNat

/-- R28: `last_ts[ch]` is written only when `ch` completes a frame whose CRC matches, with `tick_counter` after that
step's increment; RESET clears it. -/
def Obligations.TimestampsMarkValidFrames : Prop :=
  ∀ (i : Instr) (s t : State) (ch : Channel), s.Inv → exec i s = .next t → t.lastTs.get ch ≠ s.lastTs.get ch →
    (i = .reset ∧ t.lastTs.get ch = 0#64)
    ∨ (∃ b, i = .stepB b ∧ ch = route s ∧ t.lastTs.get ch = t.tickCounter
        ∧ t.tickCounter = s.tickCounter + 1#64
        ∧ (s.rx.get ch).state = .receiving
        ∧ (s.rx.get ch).fillCount.toNat + 1 = (s.cfg.spec ch).totalSize
        ∧ checksumMismatch b s = false
        ∧ (t.stats.get ch).valid = inc s.cfg (s.stats.get ch).valid)

/-! ### Storage (20) -/

/-- R63: an output buffer changes only in a STEP.B that completes a CRC-matching frame of its channel, and then it is
the whole payload; no timeout, mismatch or reset changes it. -/
def Obligations.OutputBuffersHoldWholePayloads : Prop :=
  ∀ (i : Instr) (s t : State) (ch : Channel), s.Inv → exec i s = .next t → t.out.get ch ≠ s.out.get ch →
    ∃ b, i = .stepB b ∧ ch = route s ∧ (s.rx.get ch).state = .receiving
      ∧ (s.rx.get ch).fillCount.toNat + 1 = (s.cfg.spec ch).totalSize
      ∧ checksumMismatch b s = false
      ∧ ∀ k, Memory.read (t.out.get ch) k
          = if k < payloadLength (s.cfg.spec ch) then Memory.read (t.rx.get ch).buffer (k + 2) else none

/-- R31: only TX appends to `tx_stream`, and no step removes from it. -/
def Obligations.TransmitStreamOnlyGrows : Prop :=
  (∀ s t : State, step s = .next t → ∃ f, t.txStream = s.txStream ++ f)
  ∧ (∀ (i : Instr) (s t : State), exec i s = .next t → t.txStream ≠ s.txStream → ∃ p, i = .tx p)

/-- A read of a byte just written gives it, a write leaves every other index alone and keeps the canonical form, and
canonical stores that read alike are equal: the model's own memory (log 7). -/
def Obligations.StoresReadBackWhatWasWritten : Prop :=
  ∀ (m : Memory) (i : Nat) (v : Byte), Memory.wf m →
    Memory.read (Memory.write m i v) i = some v
    ∧ (∀ k, k ≠ i → Memory.read (Memory.write m i v) k = Memory.read m k)
    ∧ Memory.wf (Memory.write m i v)
    ∧ (∀ m', Memory.wf m' → (∀ k, Memory.read m' k = Memory.read m k) → m' = m)

/-! ### The checksum (40) -/

/-- R103: CRC's word; it writes the checksum of the first `crc_len` bytes into `crc_out` and nothing else; a length of 0
gives 0xFFFF; a length beyond the data faults and writes nothing but the fault. -/
def Obligations.CrcCommandWritesCrcOut : Prop :=
  ∀ (data : List Byte) (len : Nat) (s : State), s.Running →
    encodeWord (.crc data len) = 0x600#12
    ∧ exec (.crc data 0) s = .next { s with crcOut := some 0xFFFF#16 } ∧
    (len ≤ data.length → ∃ c, crc16 data len = .ok c ∧ exec (.crc data len) s = .next { s with crcOut := some c })
    ∧ (data.length < len →
        exec (.crc data len) s = .next { s with fault := some .crcLengthOutOfRange })

/-- R101: the checksum depends only on the first `length` bytes, and length 0 gives 0xFFFF. -/
def Obligations.ChecksumIgnoresLaterBytes : Prop :=
  (∀ (data extra : List Byte) (len : Nat), len ≤ data.length → crc16 (data ++ extra) len = crc16 data len)
  ∧ (∀ data : List Byte, crc16 data 0 = .ok 0xFFFF#16)

/-- The byte-wise register of 40 R100 is the bit-serial one that takes the data most significant bit first. -/
def Obligations.ChecksumIsBitSerial : Prop :=
  ∀ data : List Byte, crc16 data data.length = .ok (((data.map bitsOf).flatten).foldl serialBit 0xFFFF#16)

/-- The residue (40 section 3): the CRC over a whole built frame is zero. -/
def Obligations.BuiltFrameHasZeroResidue : Prop :=
  ∀ (payload f : List Byte) (spec : FrameSpec), 4 ≤ spec.totalSize → build payload spec = .ok f →
    f.length = spec.totalSize ∧ crc16 f spec.totalSize = .ok 0#16

/-- Errors in one byte (40 section 3): change any one byte of a built frame's header or payload, a single bit of it
included, and the comparison of the trailing CRC fails. -/
def Obligations.SingleByteErrorIsDetected : Prop :=
  ∀ (payload f : List Byte) (spec : FrameSpec) (k : Nat) (v x y : Byte), 4 ≤ spec.totalSize →
    build payload spec = .ok f → k < spec.totalSize - 2 → f[k]? ≠ some v →
    (f.set k v)[spec.totalSize - 2]? = some x → (f.set k v)[spec.totalSize - 1]? = some y →
    crc16 (f.set k v) (spec.totalSize - 2) ≠ .ok (be16 x y)

/-! ### The builder and TX (43) -/

/-- R190 and R191: what `build` answers, for a payload of the right length and of a wrong one. -/
def Obligations.BuildWrapsThePayload : Prop :=
  ∀ (payload : List Byte) (spec : FrameSpec), 4 ≤ spec.totalSize →
    (payload.length = spec.totalSize - 4 →
      ∃ c, crc16 (hi8 spec.header :: lo8 spec.header :: payload) (spec.totalSize - 2) = .ok c
        ∧ build payload spec = .ok (hi8 spec.header :: lo8 spec.header :: payload ++ [hi8 c, lo8 c]))
    ∧ (payload.length ≠ spec.totalSize - 4 → build payload spec = .error .invalidPayloadLength)

/-- R192: TX's word; it appends the built frame to `tx_stream` and writes nothing else; a payload of a wrong length
appends nothing and records the fault. -/
def Obligations.TxAppendsOneFrame : Prop :=
  ∀ (payload : List Byte) (s : State), s.Running → s.cfg.valid = true →
    encodeWord (.tx payload) = 0x400#12 ∧
    (payload.length = s.cfg.specTx.totalSize - 4 →
      ∃ f, build payload s.cfg.specTx = .ok f ∧ f.length = s.cfg.specTx.totalSize
        ∧ exec (.tx payload) s = .next { s with txStream := s.txStream ++ f })
    ∧ (payload.length ≠ s.cfg.specTx.totalSize - 4 →
        exec (.tx payload) s = .next { s with fault := some .invalidPayloadLength })

/-- What TX and CRC leave alone, on every path that answers a next state: the receive path, every byte of every store,
the bytes already in `tx_stream`, the counters and the timestamps. -/
def Obligations.TxAndCrcFrames : Prop :=
  (∀ (payload : List Byte) (s t : State), exec (.tx payload) s = .next t →
      SameStores s t ∧ t.rx = s.rx ∧ t.out = s.out ∧ t.gapCounter = s.gapCounter ∧ t.tickCounter = s.tickCounter
      ∧ t.stats = s.stats ∧ t.lastTs = s.lastTs ∧ t.crcOut = s.crcOut ∧ t.refused = s.refused ∧ t.cfg = s.cfg
      ∧ t.input = s.input ∧ (∀ k, k < s.txStream.length → t.txStream[k]? = s.txStream[k]?))
  ∧ (∀ (data : List Byte) (len : Nat) (s t : State), exec (.crc data len) s = .next t →
      SameStores s t ∧ t.rx = s.rx ∧ t.out = s.out ∧ t.gapCounter = s.gapCounter ∧ t.tickCounter = s.tickCounter
      ∧ t.stats = s.stats ∧ t.lastTs = s.lastTs ∧ t.txStream = s.txStream ∧ t.refused = s.refused ∧ t.cfg = s.cfg
      ∧ t.input = s.input)

/-- TX and CRC commute with the receive path (43 section 3), when neither faults. -/
def Obligations.TxAndCrcCommuteWithReceive : Prop :=
  ∀ (s : State) (i j : Instr), s.Inv → s.Running →
    ((∃ p : List Byte, i = .tx p ∧ p.length = payloadLength s.cfg.specTx)
      ∨ (∃ (d : List Byte) (n : Nat), i = .crc d n ∧ n ≤ d.length)) →
    (j = .step ∨ (∃ b, j = .stepB b) ∨ (∃ c, j = .rxreset c)) →
    ∃ t, execAll [i, j] s = .next t ∧ execAll [j, i] s = .next t

/-! ### Whole frames through the receive path (42 section 4) -/

/-- The round trip of channel A (42 section 4): from A `Idle`, the bytes of a built frame, with no silence of
`TIMEOUT_TICKS` between them, deliver the payload and count it valid. -/
def Obligations.RoundTripThroughChannelA : Prop :=
  ∀ (s : State) (payload f : List Byte) (stream : List (Nat × Byte)), s.Inv → s.Running → s.rx.a.state = .idle →
    build payload s.cfg.specA = .ok f → stream.map Prod.snd = f → ShortGaps s.cfg stream.tail →
    ∃ t, execAll (feedWithGaps stream) s = .next t
      ∧ t.stats.a = { s.stats.a with valid := inc s.cfg s.stats.a.valid }
      ∧ (∀ k, Memory.read t.out.a k = payload[k]?)
      ∧ t.lastTs.a = t.tickCounter ∧ t.rx.a.state = .completed
      ∧ t.rx.b = s.rx.b ∧ t.stats.b = s.stats.b ∧ t.out.b = s.out.b

/-- The round trip of channel B (42 section 4): from A `Completed` and B `Idle`. The silence before the first byte is
counted on top of the gap already counted. -/
def Obligations.RoundTripThroughChannelB : Prop :=
  ∀ (s : State) (payload f : List Byte) (stream : List (Nat × Byte)), s.Inv → s.Running →
    s.rx.a.state = .completed → s.rx.b.state = .idle →
    build payload s.cfg.specB = .ok f → stream.map Prod.snd = f → ShortGaps s.cfg stream.tail →
    (∀ x, stream.head? = some x → s.gapCounter.toNat + x.1 < s.cfg.timeoutTicks) →
    ∃ t, execAll (feedWithGaps stream) s = .next t
      ∧ t.stats.b = { s.stats.b with valid := inc s.cfg s.stats.b.valid }
      ∧ (∀ k, Memory.read t.out.b k = payload[k]?)
      ∧ t.lastTs.b = t.tickCounter ∧ t.rx.a.state = .idle ∧ t.rx.b.state = .idle
      ∧ t.stats.a = s.stats.a ∧ t.out.a = s.out.a

/-- The clean cycle (42 section 4): from both receivers `Idle`, the bytes of a frame of A, then those of a frame of B,
each any bytes after their header, with no silence of `TIMEOUT_TICKS` between them: A ends `Completed` after its frame,
both are `Idle` after B's, and each channel gains exactly one count, valid or invalid. -/
def Obligations.CleanCycleCountsOneFrameEach : Prop :=
  ∀ (s : State) (restA restB : List Byte) (xa xb : List (Nat × Byte)), s.Inv → s.Running →
    s.rx.a.state = .idle → s.rx.b.state = .idle →
    xa.map Prod.snd = hi8 s.cfg.specA.header :: lo8 s.cfg.specA.header :: restA →
    xa.length = s.cfg.specA.totalSize →
    xb.map Prod.snd = hi8 s.cfg.specB.header :: lo8 s.cfg.specB.header :: restB →
    xb.length = s.cfg.specB.totalSize →
    ShortGaps s.cfg xa.tail → ShortGaps s.cfg xb →
    ∃ u t, execAll (feedWithGaps xa) s = .next u ∧ execAll (feedWithGaps xb) u = .next t
      ∧ u.rx.a.state = .completed ∧ u.rx.b.state = .idle
      ∧ t.rx.a.state = .idle ∧ t.rx.b.state = .idle
      ∧ (t.stats.a = { s.stats.a with valid := inc s.cfg s.stats.a.valid }
          ∨ t.stats.a = { s.stats.a with invalid := inc s.cfg s.stats.a.invalid })
      ∧ (t.stats.b = { s.stats.b with valid := inc s.cfg s.stats.b.valid }
          ∨ t.stats.b = { s.stats.b with invalid := inc s.cfg s.stats.b.invalid })

/-! ### Isolation and events -/

/-- Channel B, the transmit side and the driver's later actions have no influence on what channel A delivers (41 R120, 42
R154): two states that agree on channel A still agree on its stats, timestamp and output buffer after the same command, and
on its receiver unless A was `Completed` and so waited for B, whose completion resets it (42 R159). -/
def Obligations.ChannelAResultsIgnoreChannelB : Prop :=
  ∀ (i : Instr) (s s' t t' : State), AgreeOnA s s' → exec i s = .next t → exec i s' = .next t' →
    t.stats.a = t'.stats.a ∧ t.lastTs.a = t'.lastTs.a ∧ t.out.a = t'.out.a
    ∧ (s.rx.a.state ≠ .completed → t.rx.a = t'.rx.a)

/-- At most one error event meets in a command (60 section 3), from every state that meets the invariant. -/
def Obligations.AtMostOneErrorEvent : Prop :=
  ∀ (i : Instr) (s : State), s.Inv → (errorEvents i s).length ≤ 1

/-- R219: the decode refusal comes first, whatever the side operands hold; then the side-operand checks; and a command
that passes them never records a fault, from a state that meets the invariant. -/
def Obligations.ChecksComeInOrder : Prop :=
  (∀ (w : CommandWord) (p : SidePorts) (s : State), reservedWord w = true → s.Running →
      exec (decode { word := w, ports := p }) s = .next { s with refused := true })
  ∧ (∀ (i : Instr) (s t : State) (r : Fault), s.Inv → exec i s = .next t → t.fault = some r →
      (∃ p, i = .tx p ∧ r = .invalidPayloadLength ∧ p.length ≠ payloadLength s.cfg.specTx)
      ∨ (∃ d n, i = .crc d n ∧ r = .crcLengthOutOfRange ∧ d.length < n))
end

