-- ==== Sys2Proof/Laws/Memory.lean ====
section
/-! SUPPORT. The laws of a byte store: a read after a write, and that every write keeps the canonical form. -/

namespace Sys2Proof.Machine

@[simp] theorem Memory.read_nil (i : Nat) : Memory.read [] i = none := rfl

@[simp] theorem Memory.wf_nil : Memory.wf [] := List.Pairwise.nil

/-- A read at an index below every listed one finds nothing. -/
theorem Memory.read_below {m : Memory} {i : Nat} (h : ∀ x ∈ m, i < x.1) : Memory.read m i = none := by
  induction m with
  | nil => rfl
  | cons c m ih =>
    obtain ⟨j, w⟩ := c
    have hj : i < j := h (j, w) (by simp)
    have : i ≠ j := by omega
    simp only [Memory.read, this, if_false]
    exact ih (fun x hx => h x (by simp [hx]))

/-- The byte written is the byte read back. -/
@[simp] theorem Memory.read_write_same (m : Memory) (i : Nat) (v : Byte) :
    Memory.read (Memory.write m i v) i = some v := by
  induction m with
  | nil => simp [Memory.write, Memory.read]
  | cons c m ih =>
    obtain ⟨j, w⟩ := c
    simp only [Memory.write]
    split
    · simp [Memory.read]
    · split
      · simp [Memory.read]
      · rename_i h1 h2
        simp [Memory.read, h2, ih]

/-- A write leaves every other index alone. -/
theorem Memory.read_write_other (m : Memory) {i k : Nat} (h : k ≠ i) (v : Byte) :
    Memory.read (Memory.write m i v) k = Memory.read m k := by
  induction m with
  | nil => simp [Memory.write, Memory.read, h]
  | cons c m ih =>
    obtain ⟨j, w⟩ := c
    simp only [Memory.write]
    split
    · simp [Memory.read, h]
    · split
      · rename_i h1 h2
        subst h2
        simp [Memory.read, h]
      · simp only [Memory.read, ih]

/-- The cells of a written store: the new one and old ones. -/
theorem Memory.mem_write {m : Memory} {i : Nat} {v : Byte} {x : Host.Cell}
    (h : x ∈ Memory.write m i v) : x = (i, v) ∨ x ∈ m := by
  induction m with
  | nil => simpa [Memory.write] using h
  | cons c m ih =>
    obtain ⟨j, w⟩ := c
    simp only [Memory.write] at h
    split at h
    · simpa using h
    · split at h
      · rcases List.mem_cons.1 h with h | h <;> simp [h]
      · rcases List.mem_cons.1 h with h | h
        · simp [h]
        · rcases ih h with h | h <;> simp [h]

/-- Every write keeps the canonical form. -/
theorem Memory.wf_write {m : Memory} (h : Memory.wf m) (i : Nat) (v : Byte) : Memory.wf (Memory.write m i v) := by
  induction m with
  | nil => simp [Memory.write, Memory.wf]
  | cons c m ih =>
    obtain ⟨j, w⟩ := c
    obtain ⟨hj, hm⟩ := List.pairwise_cons.1 h
    simp only [Memory.write]
    split
    · rename_i h1
      refine List.pairwise_cons.2 ⟨?_, h⟩
      intro x hx
      rcases List.mem_cons.1 hx with hx | hx
      · subst hx; exact h1
      · have := hj x hx
        simp only at this ⊢
        omega
    · split
      · rename_i h1 h2
        subst h2
        exact List.pairwise_cons.2 ⟨hj, hm⟩
      · rename_i h1 h2
        refine List.pairwise_cons.2 ⟨?_, ih hm⟩
        intro x hx
        rcases Memory.mem_write hx with hx | hx
        · subst hx; simp only; omega
        · exact hj x hx

/-- A written store stays below a bound that the index respects. -/
theorem Memory.bound_write {m : Memory} {n : Nat} (h : ∀ x ∈ m, x.1 < n) {i : Nat} (hi : i < n) (v : Byte) :
    ∀ x ∈ Memory.write m i v, x.1 < n := by
  intro x hx
  rcases Memory.mem_write hx with hx | hx
  · subst hx; exact hi
  · exact h x hx

/-- Two canonical stores that read alike everywhere are equal: equal contents are equal data. -/
theorem Memory.ext_of_read {m k : Memory} (hm : Memory.wf m) (hk : Memory.wf k)
    (h : ∀ i, Memory.read m i = Memory.read k i) : m = k := by
  induction m generalizing k with
  | nil =>
    cases k with
    | nil => rfl
    | cons c k => obtain ⟨j, w⟩ := c; simpa [Memory.read] using h j
  | cons c m ih =>
    obtain ⟨j, w⟩ := c
    obtain ⟨hj, hm'⟩ := List.pairwise_cons.1 hm
    cases k with
    | nil => simpa [Memory.read] using h j
    | cons d k =>
      obtain ⟨l, u⟩ := d
      obtain ⟨hl, hk'⟩ := List.pairwise_cons.1 hk
      have hjl : j = l := by
        rcases Nat.lt_trichotomy j l with hlt | heq | hlt
        · have h1 := h j
          have h2 : Memory.read ((l, u) :: k) j = none :=
            Memory.read_below (by
              intro x hx
              rcases List.mem_cons.1 hx with hx | hx
              · subst hx; exact hlt
              · exact Nat.lt_trans hlt (hl x hx))
          rw [h2] at h1
          simp [Memory.read] at h1
        · exact heq
        · have h1 := h l
          have h2 : Memory.read ((j, w) :: m) l = none :=
            Memory.read_below (by
              intro x hx
              rcases List.mem_cons.1 hx with hx | hx
              · subst hx; exact hlt
              · exact Nat.lt_trans hlt (hj x hx))
          rw [h2] at h1
          simp [Memory.read] at h1
      subst hjl
      have hwu : w = u := by simpa [Memory.read] using h j
      subst hwu
      rw [ih hm' hk']
      intro i
      by_cases hi : i = j
      · subst hi
        rw [Memory.read_below hj, Memory.read_below hl]
      · simpa [Memory.read, hi] using h i

end Sys2Proof.Machine
end

