-- ==== Sys2Proof/Laws/State.lean ====
section
/-! SUPPORT. One lemma per field per named update of the state, and the laws of a channel pair, so that no proof unfolds
a record update. -/

namespace Sys2Proof.Machine

set_option Elab.async false

@[simp] theorem PerChannel.get_a {α : Type} (p : PerChannel α) : p.get .a = p.a := rfl
@[simp] theorem PerChannel.get_b {α : Type} (p : PerChannel α) : p.get .b = p.b := rfl
@[simp] theorem PerChannel.set_a_a {α : Type} (p : PerChannel α) (x : α) : (p.set .a x).a = x := rfl
@[simp] theorem PerChannel.set_a_b {α : Type} (p : PerChannel α) (x : α) : (p.set .a x).b = p.b := rfl
@[simp] theorem PerChannel.set_b_a {α : Type} (p : PerChannel α) (x : α) : (p.set .b x).a = p.a := rfl
@[simp] theorem PerChannel.set_b_b {α : Type} (p : PerChannel α) (x : α) : (p.set .b x).b = x := rfl

/-- A statement about every channel is one about A and one about B. -/
theorem forall_channel {P : Channel → Prop} : (∀ ch, P ch) ↔ P .a ∧ P .b :=
  ⟨fun h => ⟨h .a, h .b⟩, fun h ch => by cases ch; exacts [h.1, h.2]⟩

@[simp] theorem PerChannel.get_set_same {α : Type} (p : PerChannel α) (ch : Channel) (x : α) :
    (p.set ch x).get ch = x := by cases ch <;> rfl

theorem PerChannel.get_set_other {α : Type} (p : PerChannel α) {ch ch' : Channel} (h : ch' ≠ ch) (x : α) :
    (p.set ch x).get ch' = p.get ch' := by
  cases ch <;> cases ch' <;> first | rfl | exact absurd rfl h

@[simp] theorem PerChannel.set_get {α : Type} (p : PerChannel α) (ch : Channel) : p.set ch (p.get ch) = p := by
  cases ch <;> rfl

@[simp] theorem Config.spec_a (cfg : Config) : cfg.spec .a = cfg.specA := rfl
@[simp] theorem Config.spec_b (cfg : Config) : cfg.spec .b = cfg.specB := rfl

@[simp] theorem resetReceiver_state (r : Receiver) : (resetReceiver r).state = .idle := rfl
@[simp] theorem resetReceiver_fillCount (r : Receiver) : (resetReceiver r).fillCount = 0#16 := rfl
@[simp] theorem resetReceiver_buffer (r : Receiver) : (resetReceiver r).buffer = r.buffer := rfl


@[simp] theorem tick_cfg (s : State) : (tick s).cfg = s.cfg := rfl
@[simp] theorem tick_rx (s : State) : (tick s).rx = s.rx := rfl
@[simp] theorem tick_gapCounter (s : State) : (tick s).gapCounter = s.gapCounter := rfl
@[simp] theorem tick_tickCounter (s : State) : (tick s).tickCounter = s.tickCounter + 1#64 := rfl
@[simp] theorem tick_stats (s : State) : (tick s).stats = s.stats := rfl
@[simp] theorem tick_lastTs (s : State) : (tick s).lastTs = s.lastTs := rfl
@[simp] theorem tick_out (s : State) : (tick s).out = s.out := rfl
@[simp] theorem tick_txStream (s : State) : (tick s).txStream = s.txStream := rfl
@[simp] theorem tick_crcOut (s : State) : (tick s).crcOut = s.crcOut := rfl
@[simp] theorem tick_fault (s : State) : (tick s).fault = s.fault := rfl
@[simp] theorem tick_refused (s : State) : (tick s).refused = s.refused := rfl
@[simp] theorem tick_input (s : State) : (tick s).input = s.input := rfl

@[simp] theorem countValid_cfg (ch : Channel) (s : State) : (countValid ch s).cfg = s.cfg := rfl
@[simp] theorem countValid_rx (ch : Channel) (s : State) : (countValid ch s).rx = s.rx := rfl
@[simp] theorem countValid_gapCounter (ch : Channel) (s : State) : (countValid ch s).gapCounter = s.gapCounter := rfl
@[simp] theorem countValid_tickCounter (ch : Channel) (s : State) : (countValid ch s).tickCounter = s.tickCounter := rfl
@[simp] theorem countValid_stats (ch : Channel) (s : State) : (countValid ch s).stats = s.stats.set ch { s.stats.get ch with valid := inc s.cfg (s.stats.get ch).valid } := rfl
@[simp] theorem countValid_lastTs (ch : Channel) (s : State) : (countValid ch s).lastTs = s.lastTs := rfl
@[simp] theorem countValid_out (ch : Channel) (s : State) : (countValid ch s).out = s.out := rfl
@[simp] theorem countValid_txStream (ch : Channel) (s : State) : (countValid ch s).txStream = s.txStream := rfl
@[simp] theorem countValid_crcOut (ch : Channel) (s : State) : (countValid ch s).crcOut = s.crcOut := rfl
@[simp] theorem countValid_fault (ch : Channel) (s : State) : (countValid ch s).fault = s.fault := rfl
@[simp] theorem countValid_refused (ch : Channel) (s : State) : (countValid ch s).refused = s.refused := rfl
@[simp] theorem countValid_input (ch : Channel) (s : State) : (countValid ch s).input = s.input := rfl

@[simp] theorem countInvalid_cfg (ch : Channel) (s : State) : (countInvalid ch s).cfg = s.cfg := rfl
@[simp] theorem countInvalid_rx (ch : Channel) (s : State) : (countInvalid ch s).rx = s.rx := rfl
@[simp] theorem countInvalid_gapCounter (ch : Channel) (s : State) : (countInvalid ch s).gapCounter = s.gapCounter := rfl
@[simp] theorem countInvalid_tickCounter (ch : Channel) (s : State) : (countInvalid ch s).tickCounter = s.tickCounter := rfl
@[simp] theorem countInvalid_stats (ch : Channel) (s : State) : (countInvalid ch s).stats = s.stats.set ch { s.stats.get ch with invalid := inc s.cfg (s.stats.get ch).invalid } := rfl
@[simp] theorem countInvalid_lastTs (ch : Channel) (s : State) : (countInvalid ch s).lastTs = s.lastTs := rfl
@[simp] theorem countInvalid_out (ch : Channel) (s : State) : (countInvalid ch s).out = s.out := rfl
@[simp] theorem countInvalid_txStream (ch : Channel) (s : State) : (countInvalid ch s).txStream = s.txStream := rfl
@[simp] theorem countInvalid_crcOut (ch : Channel) (s : State) : (countInvalid ch s).crcOut = s.crcOut := rfl
@[simp] theorem countInvalid_fault (ch : Channel) (s : State) : (countInvalid ch s).fault = s.fault := rfl
@[simp] theorem countInvalid_refused (ch : Channel) (s : State) : (countInvalid ch s).refused = s.refused := rfl
@[simp] theorem countInvalid_input (ch : Channel) (s : State) : (countInvalid ch s).input = s.input := rfl

@[simp] theorem countAborted_cfg (s : State) : (countAborted s).cfg = s.cfg := rfl
@[simp] theorem countAborted_rx (s : State) : (countAborted s).rx = s.rx := rfl
@[simp] theorem countAborted_gapCounter (s : State) : (countAborted s).gapCounter = s.gapCounter := rfl
@[simp] theorem countAborted_tickCounter (s : State) : (countAborted s).tickCounter = s.tickCounter := rfl
@[simp] theorem countAborted_stats (s : State) : (countAborted s).stats = s.stats.set .a { s.stats.get .a with aborted := inc s.cfg (s.stats.get .a).aborted } := rfl
@[simp] theorem countAborted_lastTs (s : State) : (countAborted s).lastTs = s.lastTs := rfl
@[simp] theorem countAborted_out (s : State) : (countAborted s).out = s.out := rfl
@[simp] theorem countAborted_txStream (s : State) : (countAborted s).txStream = s.txStream := rfl
@[simp] theorem countAborted_crcOut (s : State) : (countAborted s).crcOut = s.crcOut := rfl
@[simp] theorem countAborted_fault (s : State) : (countAborted s).fault = s.fault := rfl
@[simp] theorem countAborted_refused (s : State) : (countAborted s).refused = s.refused := rfl
@[simp] theorem countAborted_input (s : State) : (countAborted s).input = s.input := rfl

@[simp] theorem resetChannel_cfg (ch : Channel) (s : State) : (resetChannel ch s).cfg = s.cfg := rfl
@[simp] theorem resetChannel_rx (ch : Channel) (s : State) : (resetChannel ch s).rx = s.rx.set ch (resetReceiver (s.rx.get ch)) := rfl
@[simp] theorem resetChannel_gapCounter (ch : Channel) (s : State) : (resetChannel ch s).gapCounter = s.gapCounter := rfl
@[simp] theorem resetChannel_tickCounter (ch : Channel) (s : State) : (resetChannel ch s).tickCounter = s.tickCounter := rfl
@[simp] theorem resetChannel_stats (ch : Channel) (s : State) : (resetChannel ch s).stats = s.stats := rfl
@[simp] theorem resetChannel_lastTs (ch : Channel) (s : State) : (resetChannel ch s).lastTs = s.lastTs := rfl
@[simp] theorem resetChannel_out (ch : Channel) (s : State) : (resetChannel ch s).out = s.out := rfl
@[simp] theorem resetChannel_txStream (ch : Channel) (s : State) : (resetChannel ch s).txStream = s.txStream := rfl
@[simp] theorem resetChannel_crcOut (ch : Channel) (s : State) : (resetChannel ch s).crcOut = s.crcOut := rfl
@[simp] theorem resetChannel_fault (ch : Channel) (s : State) : (resetChannel ch s).fault = s.fault := rfl
@[simp] theorem resetChannel_refused (ch : Channel) (s : State) : (resetChannel ch s).refused = s.refused := rfl
@[simp] theorem resetChannel_input (ch : Channel) (s : State) : (resetChannel ch s).input = s.input := rfl

@[simp] theorem txAppend_cfg (v : Byte) (s : State) : (txAppend v s).cfg = s.cfg := rfl
@[simp] theorem txAppend_rx (v : Byte) (s : State) : (txAppend v s).rx = s.rx := rfl
@[simp] theorem txAppend_gapCounter (v : Byte) (s : State) : (txAppend v s).gapCounter = s.gapCounter := rfl
@[simp] theorem txAppend_tickCounter (v : Byte) (s : State) : (txAppend v s).tickCounter = s.tickCounter := rfl
@[simp] theorem txAppend_stats (v : Byte) (s : State) : (txAppend v s).stats = s.stats := rfl
@[simp] theorem txAppend_lastTs (v : Byte) (s : State) : (txAppend v s).lastTs = s.lastTs := rfl
@[simp] theorem txAppend_out (v : Byte) (s : State) : (txAppend v s).out = s.out := rfl
@[simp] theorem txAppend_txStream (v : Byte) (s : State) : (txAppend v s).txStream = s.txStream ++ [v] := rfl
@[simp] theorem txAppend_crcOut (v : Byte) (s : State) : (txAppend v s).crcOut = s.crcOut := rfl
@[simp] theorem txAppend_fault (v : Byte) (s : State) : (txAppend v s).fault = s.fault := rfl
@[simp] theorem txAppend_refused (v : Byte) (s : State) : (txAppend v s).refused = s.refused := rfl
@[simp] theorem txAppend_input (v : Byte) (s : State) : (txAppend v s).input = s.input := rfl

@[simp] theorem recordRefusal_cfg (s : State) : (recordRefusal s).cfg = s.cfg := rfl
@[simp] theorem recordRefusal_rx (s : State) : (recordRefusal s).rx = s.rx := rfl
@[simp] theorem recordRefusal_gapCounter (s : State) : (recordRefusal s).gapCounter = s.gapCounter := rfl
@[simp] theorem recordRefusal_tickCounter (s : State) : (recordRefusal s).tickCounter = s.tickCounter := rfl
@[simp] theorem recordRefusal_stats (s : State) : (recordRefusal s).stats = s.stats := rfl
@[simp] theorem recordRefusal_lastTs (s : State) : (recordRefusal s).lastTs = s.lastTs := rfl
@[simp] theorem recordRefusal_out (s : State) : (recordRefusal s).out = s.out := rfl
@[simp] theorem recordRefusal_txStream (s : State) : (recordRefusal s).txStream = s.txStream := rfl
@[simp] theorem recordRefusal_crcOut (s : State) : (recordRefusal s).crcOut = s.crcOut := rfl
@[simp] theorem recordRefusal_fault (s : State) : (recordRefusal s).fault = s.fault := rfl
@[simp] theorem recordRefusal_refused (s : State) : (recordRefusal s).refused = true := rfl
@[simp] theorem recordRefusal_input (s : State) : (recordRefusal s).input = s.input := rfl

@[simp] theorem recordFault_cfg (e : Fault) (s : State) : (recordFault e s).cfg = s.cfg := by
  unfold recordFault; split <;> rfl
@[simp] theorem recordFault_rx (e : Fault) (s : State) : (recordFault e s).rx = s.rx := by
  unfold recordFault; split <;> rfl
@[simp] theorem recordFault_gapCounter (e : Fault) (s : State) : (recordFault e s).gapCounter = s.gapCounter := by
  unfold recordFault; split <;> rfl
@[simp] theorem recordFault_tickCounter (e : Fault) (s : State) : (recordFault e s).tickCounter = s.tickCounter := by
  unfold recordFault; split <;> rfl
@[simp] theorem recordFault_stats (e : Fault) (s : State) : (recordFault e s).stats = s.stats := by
  unfold recordFault; split <;> rfl
@[simp] theorem recordFault_lastTs (e : Fault) (s : State) : (recordFault e s).lastTs = s.lastTs := by
  unfold recordFault; split <;> rfl
@[simp] theorem recordFault_out (e : Fault) (s : State) : (recordFault e s).out = s.out := by
  unfold recordFault; split <;> rfl
@[simp] theorem recordFault_txStream (e : Fault) (s : State) : (recordFault e s).txStream = s.txStream := by
  unfold recordFault; split <;> rfl
@[simp] theorem recordFault_crcOut (e : Fault) (s : State) : (recordFault e s).crcOut = s.crcOut := by
  unfold recordFault; split <;> rfl
@[simp] theorem recordFault_refused (e : Fault) (s : State) : (recordFault e s).refused = s.refused := by
  unfold recordFault; split <;> rfl
@[simp] theorem recordFault_input (e : Fault) (s : State) : (recordFault e s).input = s.input := by
  unfold recordFault; split <;> rfl

theorem recordFault_first (e : Fault) (s : State) (h : s.fault = none) :
    recordFault e s = { s with fault := some e } := by simp [recordFault, h]

theorem recordFault_sticky (e f : Fault) (s : State) (h : s.fault = some f) : recordFault e s = s := by
  simp [recordFault, h]

@[simp] theorem txAppendAll_cfg (f : List Byte) (s : State) : (txAppendAll f s).cfg = s.cfg := by
  induction f generalizing s with
  | nil => rfl
  | cons v vs ih => simp [txAppendAll, ih]
@[simp] theorem txAppendAll_rx (f : List Byte) (s : State) : (txAppendAll f s).rx = s.rx := by
  induction f generalizing s with
  | nil => rfl
  | cons v vs ih => simp [txAppendAll, ih]
@[simp] theorem txAppendAll_gapCounter (f : List Byte) (s : State) : (txAppendAll f s).gapCounter = s.gapCounter := by
  induction f generalizing s with
  | nil => rfl
  | cons v vs ih => simp [txAppendAll, ih]
@[simp] theorem txAppendAll_tickCounter (f : List Byte) (s : State) : (txAppendAll f s).tickCounter = s.tickCounter := by
  induction f generalizing s with
  | nil => rfl
  | cons v vs ih => simp [txAppendAll, ih]
@[simp] theorem txAppendAll_stats (f : List Byte) (s : State) : (txAppendAll f s).stats = s.stats := by
  induction f generalizing s with
  | nil => rfl
  | cons v vs ih => simp [txAppendAll, ih]
@[simp] theorem txAppendAll_lastTs (f : List Byte) (s : State) : (txAppendAll f s).lastTs = s.lastTs := by
  induction f generalizing s with
  | nil => rfl
  | cons v vs ih => simp [txAppendAll, ih]
@[simp] theorem txAppendAll_out (f : List Byte) (s : State) : (txAppendAll f s).out = s.out := by
  induction f generalizing s with
  | nil => rfl
  | cons v vs ih => simp [txAppendAll, ih]
@[simp] theorem txAppendAll_txStream (f : List Byte) (s : State) : (txAppendAll f s).txStream = s.txStream ++ f := by
  induction f generalizing s with
  | nil => simp [txAppendAll]
  | cons v vs ih => simp [txAppendAll, ih]
@[simp] theorem txAppendAll_crcOut (f : List Byte) (s : State) : (txAppendAll f s).crcOut = s.crcOut := by
  induction f generalizing s with
  | nil => rfl
  | cons v vs ih => simp [txAppendAll, ih]
@[simp] theorem txAppendAll_fault (f : List Byte) (s : State) : (txAppendAll f s).fault = s.fault := by
  induction f generalizing s with
  | nil => rfl
  | cons v vs ih => simp [txAppendAll, ih]
@[simp] theorem txAppendAll_refused (f : List Byte) (s : State) : (txAppendAll f s).refused = s.refused := by
  induction f generalizing s with
  | nil => rfl
  | cons v vs ih => simp [txAppendAll, ih]
@[simp] theorem txAppendAll_input (f : List Byte) (s : State) : (txAppendAll f s).input = s.input := by
  induction f generalizing s with
  | nil => rfl
  | cons v vs ih => simp [txAppendAll, ih]

/-- Appending a whole frame (43 R192) changes `tx_stream` only. -/
theorem txAppendAll_eq (f : List Byte) (s : State) : txAppendAll f s = { s with txStream := s.txStream ++ f } := by
  induction f generalizing s with
  | nil => simp [txAppendAll]
  | cons v vs ih => simp [txAppendAll, ih, txAppend]

end Sys2Proof.Machine
end

