-- ==== Sys2Proof/Laws/Ops.lean ====
section
/-! SUPPORT. What the shared operations can do, said once: the form of a command, the byte primitives, the range read. -/

namespace Sys2Proof.Machine

/-- The default configuration is in range, whatever the OPEN parameters are. -/
theorem default_valid : Config.default.valid = true := by
  have h := Config.openTimeoutLessOne.isLt
  have h' : Config.openTimeoutLessOne.val + 1 ≤ 4294967295 := by omega
  simp [Config.valid, Config.default, FrameSpec.inRange, h']

/-- `State.reset` is the power-up state of the default configuration. -/
theorem reset_eq_powerUp : State.reset = State.powerUp Config.default := by
  simp [State.reset, State.powerUp, default_valid, State.powered]

/-- Every store of `State.reset` is in the canonical form. -/
theorem reset_memory_wf : Memory.wf State.reset.rx.a.buffer ∧ Memory.wf State.reset.rx.b.buffer
    ∧ Memory.wf State.reset.out.a ∧ Memory.wf State.reset.out.b :=
  ⟨Memory.wf_nil, Memory.wf_nil, Memory.wf_nil, Memory.wf_nil⟩

theorem valid_spec {cfg : Config} (h : cfg.valid = true) (ch : Channel) :
    4 ≤ (cfg.spec ch).totalSize ∧ (cfg.spec ch).totalSize ≤ 65535 := by
  simp only [Config.valid, FrameSpec.inRange, Bool.and_eq_true, decide_eq_true_eq] at h
  cases ch <;> simp only [Config.spec] <;> omega

theorem valid_specTx {cfg : Config} (h : cfg.valid = true) :
    4 ≤ cfg.specTx.totalSize ∧ cfg.specTx.totalSize ≤ 65535 := by
  simp only [Config.valid, FrameSpec.inRange, Bool.and_eq_true, decide_eq_true_eq] at h
  omega

theorem valid_timeout {cfg : Config} (h : cfg.valid = true) :
    1 ≤ cfg.timeoutTicks ∧ cfg.timeoutTicks ≤ 4294967295 := by
  simp only [Config.valid, Bool.and_eq_true, decide_eq_true_eq] at h
  omega

theorem runCommand_ok {s : State} (h : s.Running) (t : State) : runCommand s (.ok t) = .next t := by
  simp [runCommand, h.noFault, h.notRefused]

theorem runCommand_error {s : State} (h : s.Running) (e : Fault) :
    runCommand s (.error e) = .next { s with fault := some e } := by
  simp [runCommand, h.noFault, h.notRefused, recordFault]

theorem runCommand_faulted {s : State} {r : Fault} (h : s.fault = some r) (body : Except Fault State) :
    runCommand s body = .fault r := by
  simp [runCommand, h]

theorem runCommand_refused {s : State} (hf : s.fault = none) (h : s.refused = true) (body : Except Fault State) :
    runCommand s body = .refused (refusalReason s) := by
  simp [runCommand, h, hf]

/-- The inversion of every command: a next state is the body's, or the recorded fault of a body that raised one. -/
theorem runCommand_next {s t : State} {body : Except Fault State} (h : runCommand s body = .next t) :
    s.Running ∧ (body = .ok t ∨ ∃ e, body = .error e ∧ t = { s with fault := some e }) := by
  unfold runCommand at h
  split at h
  · cases h
  · rename_i hf
    split at h
    · cases h
    · rename_i hr
      have hrun : s.Running := ⟨hf, by simpa using hr⟩
      refine ⟨hrun, ?_⟩
      split at h
      · rename_i u
        cases h
        exact .inl rfl
      · rename_i e
        cases h
        exact .inr ⟨e, rfl, recordFault_first e s hf⟩

theorem bufRead_of_read {r : Receiver} {i : Nat} {v : Byte} (h : Memory.read r.buffer i = some v) :
    bufRead r i = .ok v := by simp [bufRead, h]

theorem bufWrite_ok {spec : FrameSpec} {i : Nat} (h : i < spec.totalSize) (r : Receiver) (v : Byte) :
    bufWrite spec r i v = .ok { r with buffer := Memory.write r.buffer i v } := by simp [bufWrite, h]

theorem outWrite_ok {spec : FrameSpec} {i : Nat} (h : i < payloadLength spec) (m : Memory) (v : Byte) :
    outWrite spec m i v = .ok (Memory.write m i v) := by simp [outWrite, h]

/-- Reading a range that holds the bytes of a list gives the list. -/
theorem bufReadRange_ok (r : Receiver) (i : Nat) (vs : List Byte)
    (h : ∀ k, k < vs.length → Memory.read r.buffer (i + k) = vs[k]?) :
    bufReadRange r i vs.length = .ok vs := by
  induction vs generalizing i with
  | nil => rfl
  | cons v vs ih =>
    have h0 : Memory.read r.buffer i = some v := by simpa using h 0 (by simp)
    have ht := ih (i + 1) (by
      intro k hk
      have := h (k + 1) (by simpa using hk)
      simpa [Nat.add_assoc, Nat.add_comm 1 k] using this)
    simp [bufReadRange, bufRead_of_read h0, ht]

/-- Copying a payload from a buffer that holds the bytes of a list: the copied indices read as the list, every other
index as before, and the canonical form and the store's bound stay. -/
theorem copyPayload_ok (spec : FrameSpec) (r : Receiver) (i : Nat) (vs : List Byte) (m : Memory)
    (hb : i + vs.length ≤ payloadLength spec)
    (h : ∀ k, k < vs.length → Memory.read r.buffer (i + k + 2) = vs[k]?) :
    ∃ m', copyPayload spec r i vs.length m = .ok m'
      ∧ (∀ k, Memory.read m' k = if i ≤ k ∧ k < i + vs.length then vs[k - i]? else Memory.read m k)
      ∧ (Memory.wf m → Memory.wf m')
      ∧ ((∀ x ∈ m, x.1 < payloadLength spec) → ∀ x ∈ m', x.1 < payloadLength spec) := by
  induction vs generalizing i m with
  | nil => exact ⟨m, rfl, fun k => by simp, id, id⟩
  | cons v vs ih =>
    have h0 : Memory.read r.buffer (i + 2) = some v := by simpa using h 0 (by simp)
    have hlen : i + 1 + vs.length ≤ payloadLength spec := by simp at hb; omega
    have hi : i < payloadLength spec := by omega
    obtain ⟨m', hm', hread, hwf, hbound⟩ := ih (i + 1) (Memory.write m i v) hlen (by
      intro k hk
      have := h (k + 1) (by simpa using hk)
      have e : i + 1 + k + 2 = i + (k + 1) + 2 := by omega
      rw [e, this]
      simp)
    refine ⟨m', by simp [copyPayload, bufRead_of_read h0, outWrite_ok hi, hm'], ?_, ?_, ?_⟩
    · intro k
      rw [hread k]
      rcases Nat.lt_trichotomy k i with hk | hk | hk
      · rw [if_neg (by omega), if_neg (by omega), Memory.read_write_other m (by omega)]
      · subst hk
        rw [if_neg (by omega), if_pos (by simp)]
        simp
      · have e : k - i = (k - (i + 1)) + 1 := by omega
        by_cases hin : k < i + (vs.length + 1)
        · rw [if_pos (by omega), if_pos (by simp; omega), e]
          simp
        · rw [if_neg (by omega), if_neg (by simp; omega), Memory.read_write_other m (by omega)]
    · exact fun hw => hwf (Memory.wf_write hw i v)
    · exact fun hm => hbound (Memory.bound_write hm hi v)

/-- Every copy, of whatever buffer, keeps the canonical form of the output buffer. -/
theorem copyPayload_wf {spec : FrameSpec} {r : Receiver} {i n : Nat} {m m' : Memory}
    (h : copyPayload spec r i n m = .ok m') (hw : Memory.wf m) : Memory.wf m' := by
  induction n generalizing i m with
  | zero => cases h; exact hw
  | succ n ih =>
    simp only [copyPayload] at h
    split at h
    · cases h
    · split at h
      · cases h
      · rename_i v _ k hk
        unfold outWrite at hk
        split at hk
        · cases hk
          exact ih h (Memory.wf_write hw _ _)
        · cases hk

end Sys2Proof.Machine
end

