-- ==== Sys2Proof/Laws/Checksum.lean ====
section
/-! SUPPORT. The CRC register over sequences, and what the checksum and the builder answer. -/

namespace Sys2Proof.Machine

@[simp] theorem crcBytes_nil (r : Word16) : crcBytes r [] = r := rfl
@[simp] theorem crcBytes_cons (r : Word16) (d : Byte) (ds : List Byte) :
    crcBytes r (d :: ds) = crcBytes (crcByte r d) ds := rfl

theorem crcBytes_append (r : Word16) (xs ys : List Byte) :
    crcBytes r (xs ++ ys) = crcBytes (crcBytes r xs) ys := by
  induction xs generalizing r with
  | nil => rfl
  | cons x xs ih => simpa using ih (crcByte r x)

theorem crc16_ok {data : List Byte} {n : Nat} (h : n ≤ data.length) :
    crc16 data n = .ok (crcBytes 0xFFFF#16 (data.take n)) := by
  simp [crc16, Nat.not_lt.2 h]

theorem crc16_error {data : List Byte} {n : Nat} (h : data.length < n) :
    crc16 data n = .error .crcLengthOutOfRange := by
  simp [crc16, h]

theorem crc16_all (data : List Byte) {n : Nat} (h : data.length = n) :
    crc16 data n = .ok (crcBytes 0xFFFF#16 data) := by
  rw [crc16_ok (by omega), List.take_of_length_le (by omega)]

/-- The two halves of a 16-bit value, put back together. -/
@[simp] theorem be16_hi8_lo8 (h : Word16) : be16 (hi8 h) (lo8 h) = h := by
  unfold be16 hi8 lo8
  ext i hi
  simp only [BitVec.getElem_append]
  split
  · simp [BitVec.getLsbD_eq_getElem hi]
  · have e : 8 + (i - 8) = i := by omega
    simp [e, BitVec.getLsbD_eq_getElem hi]

@[simp] theorem hi8_be16 (x y : Byte) : hi8 (be16 x y) = x := by
  ext i hi
  have e : (x ++ y).getLsbD (8 + i) = if 8 + i < 8 then y.getLsbD (8 + i) else x.getLsbD (8 + i - 8) :=
    BitVec.getLsbD_append
  simpa [hi8, be16, BitVec.getLsbD_eq_getElem hi] using e

@[simp] theorem lo8_be16 (x y : Byte) : lo8 (be16 x y) = y := by
  ext i hi
  have e : (x ++ y).getLsbD i = if i < 8 then y.getLsbD i else x.getLsbD (i - 8) := BitVec.getLsbD_append
  simpa [lo8, be16, hi, BitVec.getLsbD_eq_getElem hi] using e

/-- What the builder answers for a payload of the right length. -/
theorem build_ok {payload : List Byte} {spec : FrameSpec} (hT : 4 ≤ spec.totalSize)
    (h : payload.length = payloadLength spec) :
    build payload spec = .ok (hi8 spec.header :: lo8 spec.header :: payload
      ++ [hi8 (crcBytes 0xFFFF#16 (hi8 spec.header :: lo8 spec.header :: payload)),
          lo8 (crcBytes 0xFFFF#16 (hi8 spec.header :: lo8 spec.header :: payload))]) := by
  have hlen : (hi8 spec.header :: lo8 spec.header :: payload).length = crcCovered spec := by
    simp only [List.length_cons, h, payloadLength, crcCovered]
    omega
  simp only [build, h, ne_eq, not_true_eq_false, if_false, crc16_all _ hlen]

theorem build_error {payload : List Byte} {spec : FrameSpec} (h : payload.length ≠ payloadLength spec) :
    build payload spec = .error .invalidPayloadLength := by
  simp [build, h]

end Sys2Proof.Machine
end

