-- ==== Sys2Proof/Laws/Decode.lean ====
section
/-! SUPPORT. The fields of a word put together from its fields. -/

namespace Sys2Proof

@[simp] theorem opField_commandWord (op : BitVec 3) (v : BitVec 1) (d : Byte) :
    opField (commandWord op v d) = op := by
  revert op v d
  unfold opField commandWord
  intro op v d
  ext i hi
  have e : (op ++ v ++ d).getLsbD (9 + i)
      = if 9 + i < 8 then d.getLsbD (9 + i) else (op ++ v).getLsbD (9 + i - 8) := BitVec.getLsbD_append
  have e' : (op ++ v).getLsbD (9 + i - 8)
      = if 9 + i - 8 < 1 then v.getLsbD (9 + i - 8) else op.getLsbD (9 + i - 8 - 1) := BitVec.getLsbD_append
  have h1 : ¬ (9 + i < 8) := by omega
  have h2 : ¬ (9 + i - 8 < 1) := by omega
  have h3 : 9 + i - 8 - 1 = i := by omega
  rw [if_neg h2, h3] at e'
  rw [if_neg h1, e'] at e
  simpa [BitVec.getLsbD_eq_getElem hi] using e

@[simp] theorem vField_commandWord (op : BitVec 3) (v : BitVec 1) (d : Byte) :
    vField (commandWord op v d) = v := by
  unfold vField commandWord
  ext i hi
  have e : (op ++ v ++ d).getLsbD (8 + i)
      = if 8 + i < 8 then d.getLsbD (8 + i) else (op ++ v).getLsbD (8 + i - 8) := BitVec.getLsbD_append
  have e' : (op ++ v).getLsbD (8 + i - 8)
      = if 8 + i - 8 < 1 then v.getLsbD (8 + i - 8) else op.getLsbD (8 + i - 8 - 1) := BitVec.getLsbD_append
  have h1 : ¬ (8 + i < 8) := by omega
  have h2 : 8 + i - 8 < 1 := by omega
  have h3 : 8 + i - 8 = i := by omega
  rw [if_pos h2, h3] at e'
  rw [if_neg h1, h3, e'] at e
  simpa [BitVec.getLsbD_eq_getElem hi] using e

@[simp] theorem dField_commandWord (op : BitVec 3) (v : BitVec 1) (d : Byte) :
    dField (commandWord op v d) = d := by
  unfold dField commandWord
  ext i hi
  have e : (op ++ v ++ d).getLsbD i
      = if i < 8 then d.getLsbD i else (op ++ v).getLsbD (i - 8) := BitVec.getLsbD_append
  rw [if_pos hi] at e
  simpa [BitVec.getLsbD_eq_getElem hi] using e

end Sys2Proof
end

