-- ==== Sys2Proof/Laws/Receiver.lean ====
section
/-! SUPPORT. What a feed can do to a receiver that meets its invariant, case by case. -/

namespace Sys2Proof.Machine

theorem appendByte_ok {spec : FrameSpec} {r : Receiver} (h : r.fillCount.toNat < spec.totalSize) (b : Byte) :
    appendByte spec b r
      = .ok { r with buffer := Memory.write r.buffer r.fillCount.toNat b, fillCount := r.fillCount + 1#16 } := by
  simp [appendByte, bufWrite_ok h]

/-- The feed in `Idle`, the byte matching. -/
theorem feedReceiver_idle_match {spec : FrameSpec} {r : Receiver} (hT : 4 ≤ spec.totalSize) (hs : r.state = .idle)
    (hf : r.fillCount = 0#16) {b : Byte} (hb : b = hi8 spec.header) :
    feedReceiver spec b r
      = .ok (false, { state := .starting, buffer := Memory.write r.buffer 0 b, fillCount := 1#16 }) := by
  have h : r.fillCount.toNat < spec.totalSize := by simp [hf]; omega
  simp [feedReceiver, hs, feedIdle, hb, appendByte_ok h, hf]

theorem feedReceiver_idle_other {spec : FrameSpec} {r : Receiver} (hs : r.state = .idle)
    {b : Byte} (hb : b ≠ hi8 spec.header) : feedReceiver spec b r = .ok (false, r) := by
  simp [feedReceiver, hs, feedIdle, hb]

theorem feedReceiver_starting_match {spec : FrameSpec} {r : Receiver} (hT : 4 ≤ spec.totalSize)
    (hs : r.state = .starting) (hf : r.fillCount = 1#16) {b : Byte} (hb : b = lo8 spec.header) :
    feedReceiver spec b r
      = .ok (false, { state := .receiving, buffer := Memory.write r.buffer 1 b, fillCount := 2#16 }) := by
  have h : r.fillCount.toNat < spec.totalSize := by simp [hf]; omega
  simp [feedReceiver, hs, feedStarting, hb, appendByte_ok h, hf]

theorem feedReceiver_starting_other {spec : FrameSpec} {r : Receiver} (hs : r.state = .starting)
    {b : Byte} (hb : b ≠ lo8 spec.header) : feedReceiver spec b r = .ok (false, resetReceiver r) := by
  simp [feedReceiver, hs, feedStarting, hb]

theorem feedReceiver_receiving {spec : FrameSpec} {r : Receiver} (hT : spec.totalSize ≤ 65535)
    (hs : r.state = .receiving) (hf : r.fillCount.toNat + 1 < spec.totalSize) (b : Byte) :
    feedReceiver spec b r
      = .ok (false, { state := .receiving, buffer := Memory.write r.buffer r.fillCount.toNat b,
                      fillCount := r.fillCount + 1#16 }) := by
  have h1 : (r.fillCount + 1#16).toNat = r.fillCount.toNat + 1 := by
    rw [BitVec.toNat_add]
    simp
    omega
  have h2 : (r.fillCount.toNat + 1) % 65536 ≠ spec.totalSize := by omega
  simp [feedReceiver, hs, feedReceiving, appendByte_ok (show r.fillCount.toNat < spec.totalSize by omega), h2]

theorem feedReceiver_last {spec : FrameSpec} {r : Receiver} (hT : spec.totalSize ≤ 65535)
    (hs : r.state = .receiving) (hf : r.fillCount.toNat + 1 = spec.totalSize) (b : Byte) :
    feedReceiver spec b r
      = .ok (true, { state := .completed, buffer := Memory.write r.buffer r.fillCount.toNat b,
                     fillCount := r.fillCount + 1#16 }) := by
  have h2 : (r.fillCount.toNat + 1) % 65536 = spec.totalSize := by omega
  simp [feedReceiver, hs, feedReceiving, appendByte_ok (show r.fillCount.toNat < spec.totalSize by omega), h2]

theorem feedReceiver_completed {spec : FrameSpec} {r : Receiver} (hs : r.state = .completed) (b : Byte) :
    feedReceiver spec b r = .ok (false, r) := by
  simp [feedReceiver, hs, feedCompleted]

/-- `reset()` keeps a receiver's invariant: the buffer's old bytes stay in their store (41 R126). -/
theorem Receiver.Ok.resetReceiver {spec : FrameSpec} {r : Receiver} (h : Receiver.Ok spec r) :
    Receiver.Ok spec (Sys2Proof.Machine.resetReceiver r) where
  fill := by simp [FillMatchesState]
  wf := h.wf
  inStore := h.inStore
  written := by simp
  headerHigh := by simp
  headerLow := by simp

/-- Appending at `fill_count` keeps what the invariant says of the buffer (10 R39). -/
theorem Receiver.Ok.append {spec : FrameSpec} {r : Receiver} (h : Receiver.Ok spec r) (hT : spec.totalSize ≤ 65535)
    (hf : r.fillCount.toNat < spec.totalSize) (st : ReceiverState) (b : Byte)
    (h0 : r.fillCount.toNat = 0 → b = hi8 spec.header) (h1 : r.fillCount.toNat = 1 → b = lo8 spec.header)
    (hfill : FillMatchesState spec { state := st, buffer := Memory.write r.buffer r.fillCount.toNat b,
                                     fillCount := r.fillCount + 1#16 }) :
    Receiver.Ok spec { state := st, buffer := Memory.write r.buffer r.fillCount.toNat b,
                       fillCount := r.fillCount + 1#16 } where
  fill := hfill
  wf := Memory.wf_write h.wf _ _
  inStore := Memory.bound_write h.inStore hf _
  written := by
    intro i hi
    have e : (r.fillCount + 1#16).toNat = r.fillCount.toNat + 1 := by
      rw [BitVec.toNat_add]; simp; omega
    simp only [e] at hi
    by_cases hik : i = r.fillCount.toNat
    · exact ⟨b, by simp [hik]⟩
    · obtain ⟨v, hv⟩ := h.written i (by omega)
      exact ⟨v, by simpa [Memory.read_write_other _ hik] using hv⟩
  headerHigh := by
    intro _
    by_cases hz : r.fillCount.toNat = 0
    · simp [hz, h0 hz]
    · have : (0 : Nat) ≠ r.fillCount.toNat := by omega
      simpa [Memory.read_write_other _ this] using h.headerHigh (by omega)
  headerLow := by
    intro hi
    have e : (r.fillCount + 1#16).toNat = r.fillCount.toNat + 1 := by
      rw [BitVec.toNat_add]; simp; omega
    simp only [e] at hi
    by_cases hz : r.fillCount.toNat = 1
    · simp [hz, h1 hz]
    · have : (1 : Nat) ≠ r.fillCount.toNat := by omega
      simpa [Memory.read_write_other _ this] using h.headerLow (by omega)

/-- The inversion of a feed from a receiver that meets its invariant: it always answers, `done` holds exactly on the
`total_size`-th byte, and the receiver meets its invariant afterwards. -/
theorem feedReceiver_ok {spec : FrameSpec} {r : Receiver} (hT : 4 ≤ spec.totalSize ∧ spec.totalSize ≤ 65535)
    (h : Receiver.Ok spec r) (b : Byte) :
    ∃ done r', feedReceiver spec b r = .ok (done, r') ∧ Receiver.Ok spec r'
      ∧ (done = true ↔ r.state = .receiving ∧ r.fillCount.toNat + 1 = spec.totalSize)
      ∧ (done = true → r' = { state := .completed, buffer := Memory.write r.buffer r.fillCount.toNat b,
                              fillCount := r.fillCount + 1#16 })
      ∧ (done = false → r.state ≠ .completed → r'.state ≠ .completed) := by
  obtain ⟨hT4, hTm⟩ := hT
  have hfill := h.fill
  cases hs : r.state with
  | idle =>
    simp only [FillMatchesState, hs] at hfill
    by_cases hb : b = hi8 spec.header
    · refine ⟨false, _, feedReceiver_idle_match hT4 hs hfill hb, ?_, by simp, by simp, by simp⟩
      have := h.append hTm (by simp [hfill]; omega) .starting b (fun _ => hb) (by simp [hfill])
        (by simp [FillMatchesState, hfill])
      simpa [hfill] using this
    · exact ⟨false, r, feedReceiver_idle_other hs hb, h, by simp, by simp, by simp [hs]⟩
  | starting =>
    simp only [FillMatchesState, hs] at hfill
    by_cases hb : b = lo8 spec.header
    · refine ⟨false, _, feedReceiver_starting_match hT4 hs hfill hb, ?_, by simp, by simp, by simp⟩
      have := h.append hTm (by simp [hfill]; omega) .receiving b (by simp [hfill]) (fun _ => hb)
        (by simp [FillMatchesState, hfill]; omega)
      simpa [hfill] using this
    · exact ⟨false, _, feedReceiver_starting_other hs hb, h.resetReceiver, by simp, by simp, by simp⟩
  | receiving =>
    simp only [FillMatchesState, hs] at hfill
    have e : (r.fillCount + 1#16).toNat = r.fillCount.toNat + 1 := by
      rw [BitVec.toNat_add]; simp; omega
    by_cases hl : r.fillCount.toNat + 1 = spec.totalSize
    · refine ⟨true, _, feedReceiver_last hTm hs hl b, ?_, by simp [hl], by simp, by simp⟩
      exact h.append hTm (by omega) .completed b (by omega) (by omega) (by simp only [FillMatchesState]; omega)
    · refine ⟨false, _, feedReceiver_receiving hTm hs (by omega) b, ?_, by simp [hl], by simp, by simp⟩
      exact h.append hTm (by omega) .receiving b (by omega) (by omega) (by simp only [FillMatchesState]; omega)
  | completed =>
    exact ⟨false, r, feedReceiver_completed hs b, h, by simp, by simp, by simp⟩

end Sys2Proof.Machine
end

