-- ==== Sys2Proof/Laws/Orchestrator.lean ====
section
/-! SUPPORT. What STEP and STEP.B can do, said once: the validation and the copy of a completed frame, and the inversion
of the command bodies. -/

namespace Sys2Proof.Machine

/-- The state of a STEP.B after tick, gap clear and feed, with the fed receiver at `r` (42 R153). -/
def afterFeed (s : State) (r : Receiver) : State :=
  { tick s with gapCounter := 0#32, rx := s.rx.set (route s) r }

@[simp] theorem afterFeed_cfg (s : State) (r : Receiver) : (afterFeed s r).cfg = s.cfg := rfl
@[simp] theorem afterFeed_rx (s : State) (r : Receiver) : (afterFeed s r).rx = s.rx.set (route s) r := rfl
@[simp] theorem afterFeed_gapCounter (s : State) (r : Receiver) : (afterFeed s r).gapCounter = 0#32 := rfl
@[simp] theorem afterFeed_tickCounter (s : State) (r : Receiver) :
    (afterFeed s r).tickCounter = s.tickCounter + 1#64 := rfl
@[simp] theorem afterFeed_stats (s : State) (r : Receiver) : (afterFeed s r).stats = s.stats := rfl
@[simp] theorem afterFeed_lastTs (s : State) (r : Receiver) : (afterFeed s r).lastTs = s.lastTs := rfl
@[simp] theorem afterFeed_out (s : State) (r : Receiver) : (afterFeed s r).out = s.out := rfl
@[simp] theorem afterFeed_txStream (s : State) (r : Receiver) : (afterFeed s r).txStream = s.txStream := rfl
@[simp] theorem afterFeed_crcOut (s : State) (r : Receiver) : (afterFeed s r).crcOut = s.crcOut := rfl
@[simp] theorem afterFeed_fault (s : State) (r : Receiver) : (afterFeed s r).fault = s.fault := rfl
@[simp] theorem afterFeed_refused (s : State) (r : Receiver) : (afterFeed s r).refused = s.refused := rfl
@[simp] theorem afterFeed_input (s : State) (r : Receiver) : (afterFeed s r).input = s.input := rfl

/-- The state of a valid completion before the re-arm (42 R157), `m` the output buffer after the copy. -/
def afterValid (ch : Channel) (m : Memory) (s : State) : State :=
  countValid ch { s with out := s.out.set ch m, lastTs := s.lastTs.set ch s.tickCounter }

theorem stepByteCommand_of_feed_false {s : State} {b : Byte} {r : Receiver}
    (h : feedReceiver (s.cfg.spec (route s)) b (s.rx.get (route s)) = .ok (false, r)) :
    stepByteCommand b s = .ok (afterFeed s r) := by
  simp [stepByteCommand, feed, h, afterFeed]

theorem stepByteCommand_of_feed_true {s : State} {b : Byte} {r : Receiver}
    (h : feedReceiver (s.cfg.spec (route s)) b (s.rx.get (route s)) = .ok (true, r)) :
    stepByteCommand b s = complete (route s) (afterFeed s r) := by
  simp [stepByteCommand, feed, h, afterFeed]

theorem complete_of_invalid {ch : Channel} {s : State}
    (h : validate (s.cfg.spec ch) (s.rx.get ch) = .ok false) :
    complete ch s = .ok (rearm ch (countInvalid ch s)) := by
  simp [complete, h, invalidPath]

theorem complete_of_valid {ch : Channel} {s : State} {m : Memory}
    (h : validate (s.cfg.spec ch) (s.rx.get ch) = .ok true)
    (hm : copyPayload (s.cfg.spec ch) (s.rx.get ch) 0 (payloadLength (s.cfg.spec ch)) (s.out.get ch) = .ok m) :
    complete ch s = .ok (rearm ch (afterValid ch m s)) := by
  simp [complete, h, validPath, hm, afterValid]

/-- The inversion of a STEP.B body: if it answers a state, the byte was fed, and either nothing completed, or the frame
was counted invalid, or its payload was copied and it was counted valid. -/
theorem stepByteCommand_cases {s t : State} {b : Byte} (h : stepByteCommand b s = .ok t) :
    ∃ done r, feedReceiver (s.cfg.spec (route s)) b (s.rx.get (route s)) = .ok (done, r)
      ∧ ((done = false ∧ t = afterFeed s r)
        ∨ (done = true ∧ validate (s.cfg.spec (route s)) r = .ok false
            ∧ t = rearm (route s) (countInvalid (route s) (afterFeed s r)))
        ∨ (done = true ∧ validate (s.cfg.spec (route s)) r = .ok true
            ∧ ∃ m, copyPayload (s.cfg.spec (route s)) r 0 (payloadLength (s.cfg.spec (route s)))
                (s.out.get (route s)) = .ok m
              ∧ t = rearm (route s) (afterValid (route s) m (afterFeed s r)))) := by
  cases hf : feedReceiver (s.cfg.spec (route s)) b (s.rx.get (route s)) with
  | error e => simp [stepByteCommand, feed, hf] at h
  | ok p =>
    obtain ⟨done, r⟩ := p
    refine ⟨done, r, rfl, ?_⟩
    cases done with
    | false =>
      rw [stepByteCommand_of_feed_false hf] at h
      cases h
      exact .inl ⟨rfl, rfl⟩
    | true =>
      rw [stepByteCommand_of_feed_true hf] at h
      simp only [complete, afterFeed_cfg, afterFeed_rx, PerChannel.get_set_same] at h
      split at h
      · cases h
      · rename_i hv
        cases h
        exact .inr (.inl ⟨rfl, hv, rfl⟩)
      · rename_i hv
        simp only [validPath, afterFeed_cfg, afterFeed_rx, PerChannel.get_set_same, afterFeed_out] at h
        cases hc : copyPayload (s.cfg.spec (route s)) r 0 (payloadLength (s.cfg.spec (route s)))
            (s.out.get (route s)) with
        | error e => simp [hc] at h
        | ok m =>
          simp only [hc] at h
          cases h
          exact .inr (.inr ⟨rfl, hv, m, rfl, rfl⟩)

/-- A store whose first `n` indices all have values holds a list of `n` bytes there. -/
theorem frame_of_written {m : Memory} {n : Nat} (h : ∀ i, i < n → ∃ v, Memory.read m i = some v) :
    ∃ f : List Byte, f.length = n ∧ ∀ i, i < n → Memory.read m i = f[i]? := by
  induction n with
  | zero => exact ⟨[], rfl, by omega⟩
  | succ n ih =>
    obtain ⟨f, hl, hf⟩ := ih (fun i hi => h i (by omega))
    obtain ⟨v, hv⟩ := h n (by omega)
    refine ⟨f ++ [v], by simp [hl], ?_⟩
    intro i hi
    by_cases hin : i < n
    · rw [hf i hin, List.getElem?_append_left (by omega)]
    · have : i = n := by omega
      subst this
      rw [hv]
      simp [← hl]

/-- Validation of a buffer that holds a whole frame `body ++ [x, y]` (42 R156). -/
theorem validate_ok {spec : FrameSpec} {r : Receiver} {body : List Byte} {x y : Byte} (hT : 4 ≤ spec.totalSize)
    (hl : body.length = spec.totalSize - 2)
    (h : ∀ i, i < spec.totalSize → Memory.read r.buffer i = (body ++ [x, y])[i]?) :
    validate spec r = .ok (decide (be16 x y = crcBytes 0xFFFF#16 body)) := by
  have hx : Memory.read r.buffer (spec.totalSize - 2) = some x := by
    rw [h _ (by omega), ← hl]
    simp
  have hy : Memory.read r.buffer (spec.totalSize - 1) = some y := by
    have e : spec.totalSize - 1 = body.length + 1 := by omega
    rw [h _ (by omega), e, List.getElem?_append_right (by omega)]
    simp
  have hb : bufReadRange r 0 (crcCovered spec) = .ok body := by
    have := bufReadRange_ok r 0 body (by
      intro k hk
      rw [Nat.zero_add, h k (by omega), List.getElem?_append_left hk])
    rwa [hl] at this
  simp [validate, bufRead_of_read hx, bufRead_of_read hy, hb, crc16_all body (show body.length = crcCovered spec from hl)]

/-- The payload copy of a buffer that holds a whole frame `h0 :: h1 :: payload ++ crc` (42 R157), onto an output buffer
that lies in its store: afterwards the output buffer reads as the payload and nothing else. -/
theorem copyPayload_frame {spec : FrameSpec} {r : Receiver} {payload : List Byte} {m : Memory}
    (hl : payload.length = payloadLength spec) (hm : ∀ x ∈ m, x.1 < payloadLength spec)
    (h : ∀ k, k < payload.length → Memory.read r.buffer (k + 2) = payload[k]?) :
    ∃ m', copyPayload spec r 0 (payloadLength spec) m = .ok m'
      ∧ (∀ k, Memory.read m' k = payload[k]?)
      ∧ (Memory.wf m → Memory.wf m')
      ∧ (∀ x ∈ m', x.1 < payloadLength spec) := by
  obtain ⟨m', h1, h2, h3, h4⟩ := copyPayload_ok spec r 0 payload m (by omega) (by simpa using h)
  refine ⟨m', by rw [← hl]; exact h1, ?_, h3, h4 hm⟩
  intro k
  rw [h2 k]
  split
  · simp
  · rename_i hk
    have hk' : payload.length ≤ k := by omega
    have : Memory.read m k = none := by
      cases hr : Memory.read m k with
      | none => rfl
      | some v =>
        exfalso
        have key : ∀ (m : Memory), Memory.read m k = some v → ∃ x ∈ m, x.1 = k := by
          intro m
          induction m with
          | nil => intro h; cases h
          | cons c m ih =>
            obtain ⟨j, w⟩ := c
            intro h
            simp only [Memory.read] at h
            split at h
            · rename_i hkj
              exact ⟨(j, w), by simp, hkj.symm⟩
            · obtain ⟨x, hx, hxk⟩ := ih h
              exact ⟨x, by simp [hx], hxk⟩
        obtain ⟨x, hx, hxk⟩ := key m hr
        have := hm x hx
        omega
    rw [this, List.getElem?_eq_none hk']

/-- STEP with A `Idle` (42 R151). -/
theorem stepCommand_idle {s : State} (h : s.rx.a.state = .idle) : stepCommand s = tick s := by
  simp [stepCommand, gapTick, h]

/-- STEP with A busy, below the threshold (42 R151). -/
theorem stepCommand_gap {s : State} (h : s.rx.a.state ≠ .idle)
    (hg : (s.gapCounter + 1#32).toNat < s.cfg.timeoutTicks) :
    stepCommand s = { tick s with gapCounter := s.gapCounter + 1#32 } := by
  simp only [stepCommand, gapTick, PerChannel.get_a, tick_rx, h, if_false, tick_cfg, tick_gapCounter,
    Nat.not_le.2 hg]

/-- STEP at the threshold (42 R151, R152). -/
theorem stepCommand_timeout {s : State} (h : s.rx.a.state ≠ .idle)
    (hg : s.cfg.timeoutTicks ≤ (s.gapCounter + 1#32).toNat) :
    stepCommand s = timeoutAbort { tick s with gapCounter := s.gapCounter + 1#32 } := by
  simp only [stepCommand, gapTick, PerChannel.get_a, tick_rx, h, if_false, tick_cfg, tick_gapCounter, hg, if_true]

/-- The inversion of a STEP body: only the tick, or the gap counted, or the timeout. -/
theorem stepCommand_cases (s : State) :
    (s.rx.a.state = .idle ∧ stepCommand s = tick s)
      ∨ (s.rx.a.state ≠ .idle ∧ (s.gapCounter + 1#32).toNat < s.cfg.timeoutTicks
          ∧ stepCommand s = { tick s with gapCounter := s.gapCounter + 1#32 })
      ∨ (s.rx.a.state ≠ .idle ∧ s.cfg.timeoutTicks ≤ (s.gapCounter + 1#32).toNat
          ∧ stepCommand s = timeoutAbort { tick s with gapCounter := s.gapCounter + 1#32 }) := by
  by_cases h : s.rx.a.state = .idle
  · exact .inl ⟨h, stepCommand_idle h⟩
  · by_cases hg : s.cfg.timeoutTicks ≤ (s.gapCounter + 1#32).toNat
    · exact .inr (.inr ⟨h, hg, stepCommand_timeout h hg⟩)
    · exact .inr (.inl ⟨h, by omega, stepCommand_gap h (by omega)⟩)

end Sys2Proof.Machine
end

