-- ==== Sys2Proof/Laws/Exec.lean ====
section
/-! SUPPORT. `exec` as one form: every command is `runCommand` of its body, so its inversion is that of `runCommand`. -/

namespace Sys2Proof.Machine

/-- The body of a command: what it does where commands run. -/
def commandBody (i : Instr) (s : State) : Except Fault State :=
  match i with
  | .step => .ok (stepCommand s)
  | .stepB b => stepByteCommand b s
  | .rxreset c => .ok (rxresetCommand c s)
  | .tx payload => txCommand payload s
  | .crc data len => checksumCommand data len s
  | .reset => .ok (resetCommand s)
  | .reserved w => .ok (reservedCommandOf w s)

theorem exec_eq_runCommand (i : Instr) (s : State) : exec i s = runCommand s (commandBody i s) := by
  cases i <;> rfl

/-- The inversion of `exec`: the machine was running, and the next state is the body's, or the recorded fault. -/
theorem exec_next {i : Instr} {s t : State} (h : exec i s = .next t) :
    s.Running ∧ (commandBody i s = .ok t ∨ ∃ e, commandBody i s = .error e ∧ t = { s with fault := some e }) :=
  runCommand_next (by rw [← exec_eq_runCommand]; exact h)

theorem exec_of_body_ok {i : Instr} {s t : State} (hr : s.Running) (h : commandBody i s = .ok t) :
    exec i s = .next t := by rw [exec_eq_runCommand, h, runCommand_ok hr]

theorem exec_of_body_error {i : Instr} {s : State} {e : Fault} (hr : s.Running) (h : commandBody i s = .error e) :
    exec i s = .next { s with fault := some e } := by rw [exec_eq_runCommand, h, runCommand_error hr]

/-- What TX does where it does not fault (43 R192). -/
theorem txCommand_ok {payload f : List Byte} {s : State} (h : build payload s.cfg.specTx = .ok f) :
    txCommand payload s = .ok { s with txStream := s.txStream ++ f } := by
  simp [txCommand, h, txAppendAll_eq]

/-- What CRC does where it does not fault (40 R103). -/
theorem checksumCommand_ok {data : List Byte} {len : Nat} (s : State) (h : len ≤ data.length) :
    checksumCommand data len s = .ok { s with crcOut := some (crcBytes 0xFFFF#16 (data.take len)) } := by
  simp [checksumCommand, crc16_ok h]

/-- The inversion of a TX body: it answers a state only for a built frame, appended whole. -/
theorem txCommand_cases {payload : List Byte} {s t : State} (h : txCommand payload s = .ok t) :
    ∃ f, build payload s.cfg.specTx = .ok f ∧ t = { s with txStream := s.txStream ++ f } := by
  cases hb : build payload s.cfg.specTx with
  | error e => simp [txCommand, hb] at h
  | ok f =>
    rw [txCommand_ok hb] at h
    cases h
    exact ⟨f, rfl, rfl⟩

/-- The inversion of a CRC body. -/
theorem checksumCommand_cases {data : List Byte} {len : Nat} {s t : State}
    (h : checksumCommand data len s = .ok t) :
    len ≤ data.length ∧ t = { s with crcOut := some (crcBytes 0xFFFF#16 (data.take len)) } := by
  by_cases hl : len ≤ data.length
  · rw [checksumCommand_ok s hl] at h
    cases h
    exact ⟨hl, rfl⟩
  · simp [checksumCommand, crc16_error (Nat.lt_of_not_le hl)] at h

end Sys2Proof.Machine
end

