-- ==== Sys2Proof/Laws/PerInstr.lean ====
section
/-! SUPPORT. A statement about every instruction as syntax, constructor by constructor: its word matches its own row of
the opcode table and no other row (30 R76, R78). -/

namespace Sys2Proof.Laws.EncodeMatchesOneRow

/-- The rows of the opcode table, as (mask, match) in the table's order: STEP, STEP.B, RXRESET, TX, CRC, RESET. -/
def rows : List (CommandWord × CommandWord) :=
  [(0xFFF#12, 0x000#12), (0xF00#12, 0x100#12), (0xFFE#12, 0x200#12),
   (0xFFF#12, 0x400#12), (0xFFF#12, 0x600#12), (0xFFF#12, 0xE00#12)]

/-- The place of an instruction's row in `rows`; a reserved word has none. -/
def rowOf : Instr → Option Nat
  | .step => some 0
  | .stepB _ => some 1
  | .rxreset _ => some 2
  | .tx _ => some 3
  | .crc _ _ => some 4
  | .reset => some 5
  | .reserved _ => none

/-- A row matches a word: the word's bits under the mask are the row's. -/
def matchesRow (w : CommandWord) (row : CommandWord × CommandWord) : Bool := (w &&& row.1) == row.2

/-- The rows that match a word, by their places. -/
def matchingRows (w : CommandWord) : List Nat :=
  (List.range rows.length).filter (fun k => (rows[k]?.map (matchesRow w)).getD false)

/-- The word of a well-formed instruction matches the instruction's own row and no other. -/
def Statement (i : Instr) : Prop := i.wf = true → matchingRows (encodeWord i) = (rowOf i).toList

theorem step : Statement .step := fun _ => by decide

theorem stepB (b : Byte) : Statement (.stepB b) := fun _ => by
  show matchingRows (encodeWord (.stepB b)) = [1]
  revert b
  decide +kernel

theorem rxreset (c : Channel) : Statement (.rxreset c) := fun _ => by
  cases c <;> decide

theorem tx (payload : List Byte) : Statement (.tx payload) := fun _ => by
  show matchingRows 0x400#12 = [3]
  decide

theorem crc (data : List Byte) (len : Nat) : Statement (.crc data len) := fun _ => by
  show matchingRows 0x600#12 = [4]
  decide

theorem reset : Statement .reset := fun _ => by decide

theorem reserved (w : CommandWord) : Statement (.reserved w) := by
  show reservedWord w = true → matchingRows w = []
  revert w
  decide +kernel

end Sys2Proof.Laws.EncodeMatchesOneRow
end

