-- ==== Sys2Proof/Laws/Run.lean ====
section
/-! SUPPORT. What an action, the end of a run and its result can be (60 R229). -/

namespace Sys2Proof.Machine

/-- A state is a run's result exactly where neither a fault nor a refusal is recorded. -/
theorem resultOf_eq_some {s t : State} : resultOf s = some t ↔ t = s ∧ s.Running := by
  constructor
  · intro h
    simp only [resultOf] at h
    split at h
    · cases h
    · rename_i hf
      cases hr : s.refused <;> simp [hr] at h
      exact ⟨h.symm, hf, hr⟩
  · rintro ⟨rfl, hf, hr⟩
    simp [resultOf, hf, hr]

theorem resultOf_running {s : State} (h : s.Running) : resultOf s = some s := resultOf_eq_some.2 ⟨rfl, h⟩

theorem resultOf_stopped {s : State} (h : ¬ s.Running) : resultOf s = none := by
  cases hr : resultOf s with
  | none => rfl
  | some t => exact absurd (resultOf_eq_some.1 hr).2 h

@[simp] theorem runAction_command (c : Command) (s : State) : runAction (.command c) s = exec (decode c) s := rfl

@[simp] theorem runAction_read (o : Observable) (s : State) : runAction (.read o) s = .next (driverRead o s) := rfl

theorem afterAction_next {s t : State} {x : DriverAction} (h : runAction x s = .next t) : afterAction s x = t := by
  simp [afterAction, h]

@[simp] theorem endState_nil (s : State) : endState [] s = s := rfl

@[simp] theorem endState_cons (x : DriverAction) (rest : List DriverAction) (s : State) :
    endState (x :: rest) s = endState rest (afterAction s x) := rfl

theorem endState_append (xs ys : List DriverAction) (s : State) :
    endState (xs ++ ys) s = endState ys (endState xs s) := by simp [endState]

/-- The inversion of an action: the state after it is its next state, or, where it has none, the state before. -/
theorem afterAction_cases (s : State) (x : DriverAction) :
    (∃ t, runAction x s = .next t ∧ afterAction s x = t)
    ∨ (afterAction s x = s ∧ ∀ t, runAction x s ≠ .next t) := by
  unfold afterAction
  cases runAction x s with
  | next t => exact .inl ⟨t, rfl, rfl⟩
  | fault r => exact .inr ⟨rfl, nofun⟩
  | refused r => exact .inr ⟨rfl, nofun⟩

/-- A command issued to a stopped machine changes nothing. -/
theorem afterAction_command_stopped {s : State} (h : ¬ s.Running) (c : Command) :
    afterAction s (.command c) = s := by
  rcases afterAction_cases s (.command c) with ⟨t, hn, -⟩ | ⟨he, -⟩
  · exact absurd (exec_next hn).1 h
  · exact he

/-- No action starts a stopped machine again (60 R216, R217). -/
theorem afterAction_stopped {s : State} (h : ¬ s.Running) (x : DriverAction) : ¬ (afterAction s x).Running := by
  cases x with
  | command c => rw [afterAction_command_stopped h]; exact h
  | read o =>
    rw [afterAction_next (runAction_read o s)]
    intro hr
    unfold driverRead at hr
    split at hr
    · exact h hr
    · rename_i e _
      have hf := hr.noFault
      unfold recordFault at hf
      split at hf
      · simp at hf
      · rename_i r hs
        simp [hs] at hf

theorem endState_stopped {s : State} (h : ¬ s.Running) (xs : List DriverAction) : ¬ (endState xs s).Running := by
  induction xs generalizing s with
  | nil => exact h
  | cons x xs ih => exact ih (afterAction_stopped h x)

end Sys2Proof.Machine
end

