-- ==== Sys2Proof/Tests/Slice0.lean ====
section
/-! SUPPORT. Tests of the model against the spec's own vectors (95) and encodings (30), and, for every statement with
hypotheses, a witness that meets them together. Expected values are the spec's, never the model's. -/

open Sys2Proof Sys2Proof.Machine Sys2Proof.Statements

namespace Sys2Proof.Tests

set_option Elab.async false

/-! ### Small states (95 section 9) -/

/-- The small test configuration of 95 section 9. -/
def smallCfg : Config where
  specA := { header := 0xA0A5#16, totalSize := 6 }
  specB := { header := 0xAA55#16, totalSize := 5 }
  specTx := { header := 0x5AD5#16, totalSize := 6 }
  timeoutTicks := 3
  statW := 8
  statOverflow := .wrap

/-- The `STAT_W` of a configuration in range is positive (92, the parameter table). -/
theorem test_config_ranges :
    smallCfg.valid = true ∧ ({ smallCfg with statW := 1 } : Config).valid = true
    ∧ ({ smallCfg with statW := 0 } : Config).valid = false := by decide

/-- A configuration out of range: `TIMEOUT_TICKS = 0` (00 R10). -/
def badCfg : Config := { smallCfg with timeoutTicks := 0 }

/-- The frame of A for the payload `12 34` (95 section 9). -/
def frameA : List Byte := [0xA0#8, 0xA5#8, 0x12#8, 0x34#8, 0x2B#8, 0x1C#8]

/-- The frame of B for the payload `56` (95 section 9). -/
def frameB : List Byte := [0xAA#8, 0x55#8, 0x56#8, 0x7D#8, 0xB8#8]

def fresh : State := State.powerUp smallCfg

/-- A store that holds the bytes of a list from index 0 on. -/
def cells (f : List Byte) : Memory := f.zipIdx.map (fun x => (x.2, x.1))

/-- The receiver state that a fill count has. -/
def stateAt (total n : Nat) : ReceiverState :=
  if n = 0 then .idle else if n = 1 then .starting else if n < total then .receiving else .completed

/-- A receiver that has accepted the first `n` bytes of a frame. -/
def receiverAt (f : List Byte) (n : Nat) : Receiver :=
  { state := stateAt f.length n, buffer := cells (f.take n), fillCount := BitVec.ofNat 16 n }

/-- A has accepted `n` bytes of `frameA`, B none. -/
def aAt (n : Nat) : State := { fresh with rx := { fresh.rx with a := receiverAt frameA n } }

/-- A is `Completed` and B has accepted `n` bytes of `frameB`. -/
def bAt (n : Nat) : State := { fresh with rx := { a := receiverAt frameA 6, b := receiverAt frameB n } }

def faulted : State := { fresh with fault := some .invalidPayloadLength }

def refusedState : State := { fresh with refused := true }

/-- The next state, if there is one. -/
def after (o : Host.Outcome State Fault Refusal) : Option State :=
  match o with
  | .next s => some s
  | .fault _ => none
  | .refused _ => none

/-! ### The invariant, checked by evaluation -/

def receiverCheck (spec : FrameSpec) (r : Receiver) : Bool :=
  (match r.state with
    | .idle => decide (r.fillCount = 0#16)
    | .starting => decide (r.fillCount = 1#16)
    | .receiving => decide (2 ≤ r.fillCount.toNat ∧ r.fillCount.toNat ≤ spec.totalSize - 1)
    | .completed => decide (r.fillCount.toNat = spec.totalSize))
  && decide (Memory.wf r.buffer)
  && r.buffer.all (fun x => decide (x.1 < spec.totalSize))
  && decide (∀ i, i < r.fillCount.toNat → (Memory.read r.buffer i).isSome = true)
  && decide (1 ≤ r.fillCount.toNat → Memory.read r.buffer 0 = some (hi8 spec.header))
  && decide (2 ≤ r.fillCount.toNat → Memory.read r.buffer 1 = some (lo8 spec.header))

theorem receiver_ok_of_check {spec : FrameSpec} {r : Receiver} (h : receiverCheck spec r = true) :
    Receiver.Ok spec r := by
  simp only [receiverCheck, Bool.and_eq_true, decide_eq_true_eq, List.all_eq_true] at h
  obtain ⟨⟨⟨⟨⟨h1, h2⟩, h3⟩, h4⟩, h5⟩, h6⟩ := h
  refine ⟨?_, h2, h3, fun i hi => Option.isSome_iff_exists.1 (h4 i hi), h5, h6⟩
  unfold FillMatchesState
  split at h1 <;> simp_all

def outCheck (spec : FrameSpec) (m : Memory) : Bool :=
  decide (Memory.wf m) && m.all (fun x => decide (x.1 < payloadLength spec))
  && (decide (m = []) || decide (∀ i, i < payloadLength spec → (Memory.read m i).isSome = true))

theorem out_ok_of_check {spec : FrameSpec} {m : Memory} (h : outCheck spec m = true) : OutOk spec m := by
  simp only [outCheck, Bool.and_eq_true, Bool.or_eq_true, decide_eq_true_eq, List.all_eq_true] at h
  obtain ⟨⟨h1, h2⟩, h3⟩ := h
  exact ⟨h1, h2, h3.imp id (fun k i hi => Option.isSome_iff_exists.1 (k i hi))⟩

def statsCheck (cfg : Config) (x : Stats) : Bool :=
  decide (x.valid ≤ statMax cfg) && decide (x.invalid ≤ statMax cfg) && decide (x.aborted ≤ statMax cfg)

def invCheck (s : State) : Bool :=
  s.cfg.valid && receiverCheck s.cfg.specA s.rx.a && receiverCheck s.cfg.specB s.rx.b
  && decide (s.rx.b.state ≠ .completed) && decide (s.gapCounter ≠ 0#32 → s.rx.a.state ≠ .idle)
  && decide (s.gapCounter.toNat < s.cfg.timeoutTicks) && outCheck s.cfg.specA s.out.a && outCheck s.cfg.specB s.out.b
  && statsCheck s.cfg s.stats.a && statsCheck s.cfg s.stats.b && decide (s.stats.b.aborted = 0)
  && decide (s.cfg.specTx.totalSize ∣ s.txStream.length)

theorem inv_of_check {s : State} (h : invCheck s = true) : s.Inv := by
  simp only [invCheck, statsCheck, Bool.and_eq_true, decide_eq_true_eq] at h
  obtain ⟨⟨⟨⟨⟨⟨⟨⟨⟨⟨⟨h1, h2⟩, h3⟩, h4⟩, h5⟩, h6⟩, h7⟩, h8⟩, ⟨⟨h9, h10⟩, h11⟩⟩, ⟨⟨h12, h13⟩, h14⟩⟩, h15⟩, h16⟩ := h
  exact ⟨h1, receiver_ok_of_check h2, receiver_ok_of_check h3, h4, h5, h6, out_ok_of_check h7, out_ok_of_check h8,
    ⟨h9, h10, h11⟩, ⟨h12, h13, h14⟩, h15, h16⟩

/-! ### Well-formedness and decoding -/

/-- `reserved` with a word of the command map is no command. -/
theorem test_wf_refuses_mapped_words :
    [0x000#12, 0x100#12, 0x1FF#12, 0x200#12, 0x201#12, 0x400#12, 0x600#12, 0xE00#12].map
      (fun w => (Instr.reserved w).wf) = List.replicate 8 false := by decide

/-- The reserved words of 95 section 6. -/
theorem test_wf_accepts_reserved_words :
    [0x001#12, 0x0FF#12, 0x202#12, 0x2FF#12, 0x300#12, 0x401#12, 0x500#12, 0x601#12, 0x700#12, 0x800#12, 0xA00#12,
      0xC00#12, 0xE01#12, 0xF00#12].map (fun w => (Instr.reserved w).wf) = List.replicate 14 true := by decide

def somePorts : SidePorts := { txPayload := [0xCA#8, 0xFE#8], crcData := [0x01#8], crcLen := 1 }

def decoded (w : CommandWord) : Instr := decode { word := w, ports := somePorts }

/-- 30 R76, row by row: op, v, d written out. -/
theorem test_decode_step : decoded 0b000000000000#12 = .step := by decide
theorem test_decode_stepB : decoded 0b000110100000#12 = .stepB 0xA0#8 := by decide
theorem test_decode_rxreset_a : decoded 0b001000000000#12 = .rxreset .a := by decide
theorem test_decode_rxreset_b : decoded 0b001000000001#12 = .rxreset .b := by decide
theorem test_decode_tx : decoded 0b010000000000#12 = .tx [0xCA#8, 0xFE#8] := by decide
theorem test_decode_crc : decoded 0b011000000000#12 = .crc [0x01#8] 1 := by decide
theorem test_decode_reset : decoded 0b111000000000#12 = .reset := by decide
theorem test_decode_reserved : decoded 0b100000000000#12 = .reserved 0x800#12 := by decide

/-- 95 section 6: the reserved words decode to themselves. -/
theorem test_decode_reserved_words :
    [0x001#12, 0x0FF#12, 0x202#12, 0x2FF#12, 0x300#12, 0x401#12, 0x500#12, 0x601#12, 0x700#12, 0x800#12, 0xA00#12,
      0xC00#12, 0xE01#12, 0xF00#12].all (fun w => decoded w == .reserved w) = true := by decide

/-- A number that fits no command word is no instruction. -/
theorem test_table_word_too_wide : decodeTableWord 16 0x1000 = none := by decide

theorem test_table_word_stepB : decodeTableWord 16 0x1A0 = some (.stepB 0xA0#8) := by decide

/-! ### One step per command -/

/-- V-O1: STEP with A `Idle` counts no gap. -/
theorem test_step_idle :
    (after (exec .step fresh)).map (fun t => (t.tickCounter, t.gapCounter)) = some (1#64, 0#32) := by decide

/-- P2: the third silent tick of `TIMEOUT_TICKS = 3` aborts A once. -/
theorem test_step_timeout :
    (after (exec .step { aAt 3 with gapCounter := 2#32 })).map
      (fun t => (t.rx.a.state, t.gapCounter, t.stats.a)) =
      some (.idle, 0#32, { valid := 0, invalid := 0, aborted := 1 }) := by decide

/-- V-O14: the tick counter wraps. -/
theorem test_tick_wraps :
    (after (exec .step { fresh with tickCounter := 0xFFFFFFFFFFFFFFFF#64 })).map (·.tickCounter) = some 0#64 := by
  decide

/-- P1: the byte 0x1C completes `A0 A5 12 34 2B 1C`: payload, timestamp, count, and A stays `Completed`. -/
theorem test_stepB_completes_a :
    (after (exec (.stepB 0x1C#8) { aAt 5 with tickCounter := 5#64 })).map
      (fun t => (t.rx.a.state, t.out.a, t.lastTs.a, t.stats.a)) =
      some (.completed, [(0, 0x12#8), (1, 0x34#8)], 6#64, { valid := 1, invalid := 0, aborted := 0 }) := by
  decide +kernel

/-- V-R3: a second `A0` is dropped, not looked at again. -/
theorem test_stepB_drops_second_header :
    (after (exec (.stepB 0xA0#8) (aAt 1))).map (fun t => (t.rx.a.state, t.rx.a.fillCount)) = some (.idle, 0#16) := by
  decide

/-- V-X1: RXRESET A clears A and the gap, and counts nothing. -/
theorem test_rxreset_a :
    (after (exec (.rxreset .a) { aAt 4 with gapCounter := 2#32 })).map
      (fun t => (t.rx.a.state, t.gapCounter, t.stats.a, t.tickCounter)) =
      some (.idle, 0#32, { valid := 0, invalid := 0, aborted := 0 }, 0#64) := by decide

/-- V-X3: RXRESET B leaves A `Completed`. -/
theorem test_rxreset_b :
    (after (exec (.rxreset .b) (bAt 3))).map (fun t => (t.rx.a.state, t.rx.b.state)) =
      some (.completed, .idle) := by decide

/-- 95 section 5: `build([CA, FE], 5AD5/6) = 5A D5 CA FE E0 7A`. -/
theorem test_tx_appends_frame :
    (after (exec (.tx [0xCA#8, 0xFE#8]) fresh)).map (·.txStream) =
      some [0x5A#8, 0xD5#8, 0xCA#8, 0xFE#8, 0xE0#8, 0x7A#8] := by decide +kernel

/-- V-T5: a payload of a wrong length appends nothing and records the fault. -/
theorem test_tx_wrong_length :
    (after (exec (.tx [0xCA#8]) fresh)).map (fun t => (t.txStream, t.fault)) =
      some ([], some .invalidPayloadLength) := by decide

/-- V-X4: the CRC of "123456789". -/
theorem test_crc_check_value :
    (after (exec (.crc [0x31#8, 0x32#8, 0x33#8, 0x34#8, 0x35#8, 0x36#8, 0x37#8, 0x38#8, 0x39#8] 9) fresh)).map
      (·.crcOut) = some (some 0x29B1#16) := by decide +kernel

/-- V-X6: a length beyond the data. -/
theorem test_crc_too_long :
    (after (exec (.crc [1#8, 2#8, 3#8] 4) fresh)).map (fun t => (t.crcOut, t.fault)) =
      some (none, some .crcLengthOutOfRange) := by decide

/-- V-S2: RESET clears the tick and `crc_out`; `tx_stream` stays. -/
theorem test_reset_keeps_streams :
    (after (exec .reset { aAt 3 with tickCounter := 3#64, txStream := [0x5A#8], crcOut := some 0x29B1#16 })).map
      (fun t => (t.tickCounter, t.txStream, t.crcOut)) = some (0#64, [0x5A#8], none) := by decide

/-- 95 section 6: a reserved word sets `refused` and nothing else. -/
theorem test_reserved_refused :
    after (exec (.reserved 0x800#12) fresh) = some { fresh with refused := true } := by decide

/-- P3: no step after a fault; 95 section 6: none after a refusal. -/
theorem test_stopped_machines :
    exec .step faulted = .fault .invalidPayloadLength
    ∧ exec (.stepB 0xA0#8) refusedState = .refused .reservedCommand := ⟨rfl, rfl⟩

/-- A fetched word runs as the next command. -/
theorem test_step_runs_fetched_word :
    (after (step (fresh.withFetchWord 16 0x1A0))).map (fun t => (t.rx.a.state, t.rx.a.fillCount)) =
      some (.starting, 1#16) := by decide

/-- V-C9: the CRC of the channel A header alone. -/
theorem test_crc_of_header : crcBytes 0xFFFF#16 [0xA0#8, 0xA5#8] = 0xE53E#16 := by decide +kernel

/-- V-C3 and V-C4: the first and the last bit of a byte. -/
theorem test_crc_of_one_bit :
    crcBytes 0xFFFF#16 [0x01#8] = 0xF1D1#16 ∧ crcBytes 0xFFFF#16 [0x80#8] = 0x7078#16 := by decide +kernel

/-- P1: the byte 0xB8 completes B and re-arms both receivers. -/
theorem test_stepB_completes_b :
    (after (exec (.stepB 0xB8#8) { bAt 4 with tickCounter := 11#64 })).map
      (fun t => (t.rx.a.state, t.rx.b.state, t.out.b, t.lastTs.b)) =
      some (.idle, .idle, [(0, 0x56#8)], 12#64) := by decide +kernel

/-! ### Witnesses: concrete states and operands that meet the hypotheses of each statement -/

theorem exists_next {o : Host.Outcome State Fault Refusal} (P : State → Prop) [DecidablePred P]
    (h : (after o).any (fun t => decide (P t)) = true) : ∃ t, o = .next t ∧ P t := by
  cases o with
  | next t => exact ⟨t, rfl, by simpa [after] using h⟩
  | fault r => simp [after] at h
  | refused r => simp [after] at h

theorem running_fresh : fresh.Running := ⟨rfl, rfl⟩
theorem running_a (n : Nat) : (aAt n).Running := ⟨rfl, rfl⟩
theorem running_b (n : Nat) : (bAt n).Running := ⟨rfl, rfl⟩

theorem inv_fresh : fresh.Inv := inv_of_check (by decide)
theorem inv_a1 : (aAt 1).Inv := inv_of_check (by decide)
theorem inv_a3 : (aAt 3).Inv := inv_of_check (by decide)
theorem inv_a5 : (aAt 5).Inv := inv_of_check (by decide)
theorem inv_b0 : (bAt 0).Inv := inv_of_check (by decide)
theorem inv_b1 : (bAt 1).Inv := inv_of_check (by decide)
theorem inv_b4 : (bAt 4).Inv := inv_of_check (by decide)

theorem test_witness_DecodeInvertsEncode :
    (Instr.stepB 0xFF#8).wf = true ∧ (Instr.rxreset .b).wf = true ∧ (Instr.crc [1#8] 9).wf = true
    ∧ (Instr.reserved 0xFFF#12).wf = true := by decide

theorem test_witness_ReservedExactlyOutsideTheMap :
    (reservedWord 0x0FF#12 = true ∧ reservedWord 0x100#12 = false ∧ reservedWord 0x1FF#12 = false
    ∧ reservedWord 0x201#12 = false ∧ reservedWord 0x202#12 = true) ∧ fresh.Running := ⟨by decide, running_fresh⟩

theorem test_witness_PseudoInstructionsExpand :
    ∃ f, build [0x12#8, 0x34#8] (shapeSpec smallCfg .a) = .ok f ∧ f = frameA := ⟨_, rfl, by decide +kernel⟩

theorem test_witness_AssemblerLinesStandForCommands :
    (∃ f, build [1#8, 2#8] smallCfg.specA = .ok f) ∧ (∃ f, build [7#8] smallCfg.specB = .ok f)
    ∧ (∃ f, build [1#8, 2#8] smallCfg.specTx = .ok f) := ⟨⟨_, rfl⟩, ⟨_, rfl⟩, ⟨_, rfl⟩⟩

theorem test_witness_StepRunsTheDecodedCommand :
    ({ fresh with input := [.command (encode .step)] } : State).input = .command (encode .step) :: []
    ∧ fresh.input = [] := ⟨rfl, rfl⟩

theorem test_witness_StepConsumesOneAction :
    (∃ t, step { fresh with input := [.command (encode .step), .read .crcOut] } = .next t ∧ t.input = [.read .crcOut])
    ∧ (∃ t, exec (.stepB 0xA0#8) fresh = .next t ∧ t.rx.a.state = .starting)
    ∧ exec .step faulted = .fault .invalidPayloadLength
    ∧ exec .step refusedState = .refused .reservedCommand :=
  ⟨exists_next _ (by decide), exists_next _ (by decide), rfl, rfl⟩

theorem test_witness_DriverReadsHaveNoSideEffect :
    observe .tickCounter fresh = .ok (.number 0)
    ∧ ({ fresh with crcOut := some 7#16 } : State).crcOut = some 7#16
    ∧ ({ fresh with input := [.read .crcOut] } : State).input = .read .crcOut :: []
    ∧ (5 < ((bAt 0).cfg.spec .a).totalSize ∧ Memory.read ((bAt 0).rx.get .a).buffer 5 = some 0x1C#8)
    ∧ (1 < payloadLength (fresh.cfg.spec .a) ∧ 0 < payloadLength (fresh.cfg.spec .b))
    ∧ Memory.read (({ fresh with out := { a := [(0, 1#8), (1, 2#8)], b := [] } } : State).out.get .a) 1 = some 2#8
    ∧ Memory.read (fresh.out.get .b) 0 = none
    ∧ ({ fresh with txStream := [1#8, 2#8] } : State).txStream[1]? = some 2#8
    ∧ ((fresh.cfg.spec .b).totalSize ≤ 5 ∧ payloadLength (fresh.cfg.spec .b) ≤ 1 ∧ fresh.txStream.length ≤ 0) := by
  refine ⟨rfl, rfl, rfl, ?_, ?_, ?_, ?_, rfl, ?_⟩ <;> decide

/-- 20 R59: a read outside a store has no side effect. -/
theorem test_read_outside_store :
    after (step { fresh with input := [.read (.outByte .a 2)] }) = some fresh := by decide

/-- Each clause at the first index it speaks of, on a running and on a stopped machine. -/
theorem test_witness_FaultingDriverReadsRecordTheirFault :
    (5 < ((aAt 5).cfg.spec .a).totalSize ∧ Memory.read ((aAt 5).rx.get .a).buffer 5 = none) ∧ fresh.crcOut = none
    ∧ (observe .crcOut fresh = .error .unwrittenRead ∧ fresh.fault = none)
    ∧ (observe .crcOut faulted = .error .unwrittenRead ∧ faulted.fault ≠ none) := by
  refine ⟨?_, rfl, ⟨rfl, rfl⟩, rfl, ?_⟩ <;> decide

theorem test_witness_CrcOutReadFaultsWithoutValue :
    fresh.Running ∧ (∃ t, exec .reset fresh = .next t ∧ t.crcOut = none)
    ∧ 1 ≤ [0xA0#8].length ∧ (∃ t, exec (.crc [0xA0#8] 1) fresh = .next t ∧ t.fault = none)
    ∧ (Instr.step ≠ .reset ∧ (∀ data len, Instr.step ≠ .crc data len) ∧ ∃ t, exec .step fresh = .next t ∧ t.fault = none)
    ∧ fresh.crcOut = none
    ∧ ({ fresh with crcOut := some 7#16 } : State).crcOut = some 7#16 :=
  ⟨running_fresh, exists_next _ (by decide), by decide, exists_next _ (by decide),
    ⟨by decide, fun _ _ => by simp, exists_next _ (by decide)⟩, rfl, rfl⟩

theorem test_witness_FaultsAreRecordedWholeAndSticky :
    (∃ t, exec (.tx []) fresh = .next t ∧ t.fault = some .invalidPayloadLength)
    ∧ faulted.fault ≠ none
    ∧ (∃ t, step { faulted with input := [.read .fault] } = .next t ∧ t.fault = some .invalidPayloadLength) :=
  ⟨exists_next _ (by decide), by decide, exists_next _ (by decide)⟩

theorem test_witness_StoppedMachinesAnswerTheirReason :
    faulted.fault = some .invalidPayloadLength
    ∧ (refusedState.fault = none ∧ refusedState.refused = true ∧ refusedState.cfg.valid = true)
    ∧ ((State.powerUp badCfg).fault = none ∧ (State.powerUp badCfg).refused = true
        ∧ (State.powerUp badCfg).cfg.valid = false)
    ∧ (∃ t, step { faulted with input := [.read .crcOut] } = .next t ∧ t.input = [])
    ∧ (runResult smallCfg [.command (encode .step), .read .tickCounter]).isSome = true
    ∧ runResult badCfg [] = none :=
  ⟨rfl, by decide, by decide, exists_next _ (by decide), by decide, by decide⟩

/-- A run (60 R229): its result is the state after the last command; it has none where that command faults (as in 95 P3) or
is reserved, where a fault was recorded before the last command, or where the configuration is out of range. -/
theorem test_run_results :
    (runResult smallCfg [.command (encode .step), .command (encode .step)]).map State.tickCounter = some 2#64
    ∧ runResult smallCfg [] = some fresh
    ∧ runResult smallCfg [.command (encode .step), .command (encode (.tx []))] = none
    ∧ runResult smallCfg [.command (encode (.tx [])), .command (encode .step)] = none
    ∧ runResult smallCfg [.command { word := 0x800#12, ports := emptyPorts }] = none
    ∧ runResult badCfg [.command (encode .step)] = none := by decide

/-- The end of 95 P3 under the small configuration: the command after the fault has no step, and the state stays. -/
theorem test_run_end_state :
    endState [.command (encode .step), .command (encode (.tx [])), .command (encode .step)] fresh
      = { fresh with tickCounter := 1#64, fault := some .invalidPayloadLength } := by decide

theorem test_witness_RefusalsAreRecordedAndSticky :
    fresh.Running ∧ badCfg.valid = false ∧ refusedState.refused = true
    ∧ (∃ t, step { refusedState with input := [.read .refused] } = .next t ∧ t.refused = true) :=
  ⟨running_fresh, by decide, rfl, exists_next _ (by decide)⟩

theorem test_witness_ResetValuesHold : smallCfg.valid = true ∧ (aAt 5).Running := ⟨by decide, running_a 5⟩

theorem test_witness_ResetReinitialisesTheLink : (bAt 4).Running := running_b 4

theorem test_witness_ResetMeetsTheInvariant : smallCfg.valid = true := by decide

theorem test_witness_EveryStepKeepsTheInvariant :
    ({ bAt 4 with input := [.command (encode (.stepB 0xB8#8))] } : State).Inv
    ∧ ∃ t, step { bAt 4 with input := [.command (encode (.stepB 0xB8#8))] } = .next t ∧ t.stats.b.valid = 1 :=
  ⟨inv_of_check (by decide), exists_next _ (by decide +kernel)⟩

theorem test_witness_ConfigurationNeverChanges :
    (∃ t, step { aAt 5 with input := [.command (encode .reset)] } = .next t ∧ t.rx.a.state = .idle)
    ∧ smallCfg.valid = true ∧ badCfg.valid = false :=
  ⟨exists_next _ (by decide), by decide, by decide⟩

theorem test_witness_ChannelBBusyOnlyAfterA :
    (bAt 0).Inv ∧ (∃ t, exec (.stepB 0xAA#8) (bAt 0) = .next t ∧ t.rx.b.state ≠ .idle)
    ∧ ((bAt 0).rx.b.state ≠ .idle → (bAt 0).rx.a.state = .completed)
    ∧ (∀ c, Instr.stepB 0xAA#8 ≠ .rxreset c)
    ∧ ¬ (Instr.stepB 0xAA#8 = .step ∧ (bAt 0).rx.a.state = .completed
          ∧ (bAt 0).cfg.timeoutTicks ≤ (bAt 0).gapCounter.toNat + 1) :=
  ⟨inv_b0, exists_next _ (by decide), by decide, fun c => by simp, by simp⟩

/-- Clause by clause: A idle; the last tick below the threshold; the tick at the threshold. -/
theorem test_witness_StepCountsGapsAndTimesOut :
    fresh.Running ∧ fresh.rx.a.state = .idle
    ∧ ({ aAt 1 with gapCounter := 1#32 } : State).Running ∧ (aAt 1).rx.a.state ≠ .idle
    ∧ (1#32 + 1#32).toNat < smallCfg.timeoutTicks
    ∧ ({ bAt 1 with gapCounter := 2#32 } : State).Running ∧ (bAt 1).rx.a.state ≠ .idle
    ∧ smallCfg.timeoutTicks ≤ (2#32 + 1#32).toNat :=
  ⟨running_fresh, rfl, ⟨rfl, rfl⟩, by decide, by decide, ⟨rfl, rfl⟩, by decide, by decide⟩

theorem test_witness_StepFrame : ∃ t, exec .step { bAt 4 with gapCounter := 2#32 } = .next t ∧ t.rx.a.state = .idle :=
  exists_next _ (by decide)

theorem test_witness_SilenceAbortsExactlyOnce :
    (bAt 4).Inv ∧ (bAt 4).Running ∧ (bAt 4).rx.a.state ≠ .idle ∧ (bAt 4).gapCounter = 0#32
    ∧ 2 < (bAt 4).cfg.timeoutTicks ∧ (bAt 4).cfg.timeoutTicks ≤ 3 :=
  ⟨inv_b4, running_b 4, by decide, rfl, by decide, by decide⟩

/-- Clause by clause, at the smallest frame (T = 4) where the fill count matters. -/
theorem test_witness_FeedFollowsTheReceiverStates :
    (let spec : FrameSpec := { header := 0xA0A5#16, totalSize := 4 }
    let r (st : ReceiverState) (n : Nat) : Receiver := { state := st, buffer := cells (frameA.take n), fillCount := BitVec.ofNat 16 n }
    4 ≤ spec.totalSize ∧ spec.totalSize ≤ 65535
    ∧ FillMatchesState spec (r .idle 0) ∧ FillMatchesState spec (r .starting 1) ∧ FillMatchesState spec (r .receiving 2)
    ∧ FillMatchesState spec (r .receiving 3) ∧ FillMatchesState spec (r .completed 4)
    ∧ 0xA0#8 = hi8 spec.header ∧ 0xA5#8 ≠ hi8 spec.header ∧ 0xA5#8 = lo8 spec.header ∧ 0xA0#8 ≠ lo8 spec.header
    ∧ (r .receiving 2).fillCount.toNat + 1 ≠ spec.totalSize ∧ (r .receiving 3).fillCount.toNat + 1 = spec.totalSize) := by
  refine ⟨?_, ?_, ?_, ?_, ?_, ?_, ?_, ?_, ?_, ?_, ?_, ?_, ?_⟩ <;> first | decide | (unfold FillMatchesState; decide)

theorem test_witness_RxresetResetsOneReceiver :
    (bAt 4).Running ∧ fresh.Running ∧ fresh.Inv ∧ (fresh.rx.get .a).state = .idle ∧ (fresh.rx.get .b).state = .idle :=
  ⟨running_b 4, running_fresh, inv_fresh, rfl, rfl⟩

theorem test_witness_ControlCommandFrames :
    (∃ t, exec (.rxreset .a) (bAt 4) = .next t ∧ t.rx.a.state = .idle)
    ∧ (∃ t, exec (.rxreset .b) (bAt 4) = .next t ∧ t.rx.b.state = .idle)
    ∧ (∃ t, exec .reset (bAt 4) = .next t ∧ t.rx.b.state = .idle)
    ∧ (∃ t, exec (.reserved 0x800#12) (bAt 4) = .next t ∧ t.refused = true) :=
  ⟨exists_next _ (by decide), exists_next _ (by decide), exists_next _ (by decide), exists_next _ (by decide)⟩

theorem test_witness_RouteReadsOnlyChannelA :
    (bAt 0).rx.a.state = .completed ∧ (aAt 5).rx.a.state ≠ .completed := by decide

theorem test_witness_StepBFeedsTheRoutedReceiver :
    (bAt 1).Running ∧ route (bAt 1) = .b
    ∧ feedReceiver ((bAt 1).cfg.spec (route (bAt 1))) 0x55#8 ((bAt 1).rx.get (route (bAt 1)))
      = .ok (false, receiverAt frameB 2) := ⟨running_b 1, by decide, by rfl⟩

/-- The four clauses on A, and the first two on B. -/
theorem test_witness_StepBHuntsForTheHeader :
    fresh.Inv ∧ fresh.Running ∧ (fresh.rx.get (route fresh)).state = .idle
    ∧ 0xA0#8 = hi8 (fresh.cfg.spec (route fresh)).header ∧ 0x00#8 ≠ hi8 (fresh.cfg.spec (route fresh)).header
    ∧ (aAt 1).Inv ∧ (aAt 1).Running ∧ ((aAt 1).rx.get (route (aAt 1))).state = .starting
    ∧ 0xA5#8 = lo8 ((aAt 1).cfg.spec (route (aAt 1))).header ∧ 0xA0#8 ≠ lo8 ((aAt 1).cfg.spec (route (aAt 1))).header
    ∧ (bAt 0).Inv ∧ (bAt 0).Running ∧ ((bAt 0).rx.get (route (bAt 0))).state = .idle
    ∧ 0xAA#8 = hi8 ((bAt 0).cfg.spec (route (bAt 0))).header ∧ 0xA0#8 ≠ hi8 ((bAt 0).cfg.spec (route (bAt 0))).header := by
  refine ⟨inv_fresh, running_fresh, ?_, ?_, ?_, inv_a1, running_a 1, ?_, ?_, ?_, inv_b0, running_b 0, ?_, ?_, ?_⟩
    <;> decide

/-- A is one byte from the end of a four-byte frame, which has no payload (41 R129 c). -/
def emptyPayloadState : State where
  cfg := { smallCfg with specA := { header := 0xA0A5#16, totalSize := 4 } }
  rx := { a := { state := .receiving, buffer := cells [0xA0#8, 0xA5#8, 0xE5#8], fillCount := 3#16 }, b := Receiver.powered }
  gapCounter := 0#32
  tickCounter := 3#64
  stats := fresh.stats
  lastTs := fresh.lastTs
  out := fresh.out
  txStream := []
  crcOut := none
  fault := none
  refused := false
  input := []

/-- The hypotheses of `ValidFrameIsDelivered`. -/
def ValidFrameHyps (s : State) (b x : Byte) (payload : List Byte) : Prop :=
  s.Inv ∧ s.Running ∧ (s.rx.get (route s)).state = .receiving
  ∧ (s.rx.get (route s)).fillCount.toNat + 1 = (s.cfg.spec (route s)).totalSize
  ∧ payload.length = payloadLength (s.cfg.spec (route s))
  ∧ (∀ k, k < (s.rx.get (route s)).fillCount.toNat → Memory.read (s.rx.get (route s)).buffer k
      = (hi8 (s.cfg.spec (route s)).header :: lo8 (s.cfg.spec (route s)).header :: payload ++ [x])[k]?)
  ∧ be16 x b = crcBytes 0xFFFF#16 (hi8 (s.cfg.spec (route s)).header :: lo8 (s.cfg.spec (route s)).header :: payload)

/-- On A, on B, and for the empty payload. -/
theorem test_witness_ValidFrameIsDelivered :
    (ValidFrameHyps (aAt 5) 0x1C#8 0x2B#8 [0x12#8, 0x34#8] ∧ route (aAt 5) = .a)
    ∧ (ValidFrameHyps (bAt 4) 0xB8#8 0x7D#8 [0x56#8] ∧ route (bAt 4) = .b)
    ∧ ValidFrameHyps emptyPayloadState 0x3E#8 0xE5#8 [] := by
  refine ⟨⟨⟨inv_a5, running_a 5, ?_, ?_, ?_, ?_, ?_⟩, ?_⟩, ⟨⟨inv_b4, running_b 4, ?_, ?_, ?_, ?_, ?_⟩, ?_⟩,
    inv_of_check (by decide), ⟨rfl, rfl⟩, ?_, ?_, ?_, ?_, ?_⟩ <;> decide +kernel

/-- The hypotheses of `InvalidFrameIsCountedAndDiscarded`. -/
def InvalidFrameHyps (s : State) (b x : Byte) (body : List Byte) : Prop :=
  s.Inv ∧ s.Running ∧ (s.rx.get (route s)).state = .receiving
  ∧ (s.rx.get (route s)).fillCount.toNat + 1 = (s.cfg.spec (route s)).totalSize
  ∧ body.length + 2 = (s.cfg.spec (route s)).totalSize
  ∧ (∀ k, k < (s.rx.get (route s)).fillCount.toNat → Memory.read (s.rx.get (route s)).buffer k = (body ++ [x])[k]?)
  ∧ be16 x b ≠ crcBytes 0xFFFF#16 body

/-- On A, on B, and for the empty payload: one bit of the last byte is wrong. -/
theorem test_witness_InvalidFrameIsCountedAndDiscarded :
    InvalidFrameHyps (aAt 5) 0x1D#8 0x2B#8 [0xA0#8, 0xA5#8, 0x12#8, 0x34#8]
    ∧ InvalidFrameHyps (bAt 4) 0xB9#8 0x7D#8 [0xAA#8, 0x55#8, 0x56#8]
    ∧ InvalidFrameHyps emptyPayloadState 0x3F#8 0xE5#8 [0xA0#8, 0xA5#8] := by
  refine ⟨⟨inv_a5, running_a 5, ?_, ?_, ?_, ?_, ?_⟩, ⟨inv_b4, running_b 4, ?_, ?_, ?_, ?_, ?_⟩,
    inv_of_check (by decide), ⟨rfl, rfl⟩, ?_, ?_, ?_, ?_, ?_⟩ <;> decide +kernel

/-- The hypotheses of `CompletionValidatesThenRearms`. -/
def CompletionHyps (s : State) (taken : List Byte) : Prop :=
  s.Inv ∧ s.Running ∧ (s.rx.get (route s)).state = .receiving
  ∧ taken.length = (s.rx.get (route s)).fillCount.toNat ∧ taken.length + 1 = (s.cfg.spec (route s)).totalSize
  ∧ (∀ k, k < taken.length → Memory.read (s.rx.get (route s)).buffer k = taken[k]?)

/-- On A, on B, and for the empty payload. -/
theorem test_witness_CompletionValidatesThenRearms :
    CompletionHyps (aAt 5) (frameA.take 5) ∧ CompletionHyps (bAt 4) (frameB.take 4)
    ∧ CompletionHyps emptyPayloadState [0xA0#8, 0xA5#8, 0xE5#8] := by
  refine ⟨⟨inv_a5, running_a 5, ?_, ?_, ?_, ?_⟩, ⟨inv_b4, running_b 4, ?_, ?_, ?_, ?_⟩,
    inv_of_check (by decide), ⟨rfl, rfl⟩, ?_, ?_, ?_, ?_⟩ <;> decide

theorem test_witness_TicksAlwaysComplete : (bAt 4).Inv ∧ (bAt 4).Running := ⟨inv_b4, running_b 4⟩

/-- Every clause's premise: a completion of A writes its output, its timestamp and its count, one with an empty payload
its timestamp alone, and a completion of B resets A. -/
theorem test_witness_StepBFrame :
    (∃ t, exec (.stepB 0x1C#8) (aAt 5) = .next t
      ∧ (t.out.get .a ≠ (aAt 5).out.get .a ∧ t.lastTs.get .a ≠ (aAt 5).lastTs.get .a ∧ Channel.b ≠ route (aAt 5)))
    ∧ (∃ t, exec (.stepB 0x3E#8) emptyPayloadState = .next t
      ∧ (t.out.get .a = emptyPayloadState.out.get .a ∧ t.lastTs.get .a ≠ emptyPayloadState.lastTs.get .a))
    ∧ ∃ t, exec (.stepB 0xB8#8) (bAt 4) = .next t ∧ (t.rx.a ≠ (bAt 4).rx.a ∧ route (bAt 4) = .b) :=
  ⟨exists_next _ (by decide +kernel), exists_next _ (by decide +kernel), exists_next _ (by decide +kernel)⟩

theorem test_witness_ChannelBUntouchedUntilAIsComplete :
    (aAt 3).rx.a.state ≠ .completed ∧ ∃ t, exec (.stepB 0x34#8) (aAt 3) = .next t ∧ t.rx.a.fillCount = 4#16 :=
  ⟨by decide, exists_next _ (by decide)⟩

/-- In `Idle`, in `Starting`, and on B. -/
theorem test_witness_HeaderMismatchLeavesNoTrace :
    (fresh.Inv ∧ fresh.Running ∧ headerMismatch 0x00#8 fresh = true)
    ∧ ((aAt 1).Inv ∧ (aAt 1).Running ∧ headerMismatch 0xA0#8 (aAt 1) = true)
    ∧ ((bAt 1).Inv ∧ (bAt 1).Running ∧ headerMismatch 0xAA#8 (bAt 1) = true) :=
  ⟨⟨inv_fresh, running_fresh, by decide⟩, ⟨inv_a1, running_a 1, by decide⟩, ⟨inv_b1, running_b 1, by decide⟩⟩

theorem test_witness_CounterWritesAreInc :
    254 < 2 ^ smallCfg.statW - 1 ∧ smallCfg.statOverflow = .wrap
    ∧ ({ smallCfg with statOverflow := .saturate } : Config).statOverflow = .saturate
    ∧ (∃ t, exec (.stepB 0x1C#8) (aAt 5) = .next t ∧ t.stats.a.valid = 1) ∧ Instr.stepB 0x1C#8 ≠ .reset :=
  ⟨by decide, rfl, rfl, exists_next _ (by decide +kernel), by decide⟩

theorem test_witness_CountersOnlyGrowBelowTheMaximum :
    Instr.stepB 0x1C#8 ≠ .reset ∧ (∃ t, exec (.stepB 0x1C#8) (aAt 5) = .next t ∧ t.stats.a.valid = 1)
    ∧ ((aAt 5).stats.get .a).valid < statMax (aAt 5).cfg ∧ ((aAt 5).stats.get .a).invalid < statMax (aAt 5).cfg
    ∧ ((aAt 5).stats.get .a).aborted < statMax (aAt 5).cfg :=
  ⟨by decide, exists_next _ (by decide +kernel), by decide, by decide, by decide⟩

theorem test_witness_TickCountsTicksOnly :
    ({ aAt 3 with tickCounter := 0xFFFFFFFFFFFFFFFF#64 } : State).Inv
    ∧ ∃ t, exec .step { aAt 3 with tickCounter := 0xFFFFFFFFFFFFFFFF#64 } = .next t ∧ t.tickCounter = 0#64 :=
  ⟨inv_of_check (by decide), exists_next _ (by decide)⟩

/-- A valid completion, and RESET after one. -/
theorem test_witness_TimestampsMarkValidFrames :
    (aAt 5).Inv ∧ (∃ t, exec (.stepB 0x1C#8) (aAt 5) = .next t ∧ t.lastTs.get .a ≠ (aAt 5).lastTs.get .a)
    ∧ ({ bAt 0 with lastTs := { a := 6#64, b := 0#64 } } : State).Inv
    ∧ (∃ t, exec .reset { bAt 0 with lastTs := { a := 6#64, b := 0#64 } } = .next t ∧ t.lastTs.get .a ≠ 6#64) :=
  ⟨inv_a5, exists_next _ (by decide +kernel), inv_of_check (by decide), exists_next _ (by decide)⟩

theorem test_witness_OutputBuffersHoldWholePayloads :
    (bAt 4).Inv ∧ ∃ t, exec (.stepB 0xB8#8) (bAt 4) = .next t ∧ t.out.get .b ≠ (bAt 4).out.get .b :=
  ⟨inv_b4, exists_next _ (by decide +kernel)⟩

theorem test_witness_TransmitStreamOnlyGrows :
    (∃ t, step (fresh.withFetchWord 16 0x400) = .next t ∧ t.txStream.length = 6)
    ∧ ∃ t, exec (.tx [0xCA#8, 0xFE#8]) fresh = .next t ∧ t.txStream ≠ fresh.txStream :=
  ⟨exists_next _ (by decide +kernel), exists_next _ (by decide +kernel)⟩

theorem test_witness_StoresReadBackWhatWasWritten :
    Memory.wf (cells frameA) ∧ (3 : Nat) ≠ 4 ∧ Memory.wf (Memory.write (cells frameB) 2 0x56#8)
    ∧ (∀ k, k < 6 → Memory.read (Memory.write (cells frameB) 2 0x56#8) k = Memory.read (cells frameB) k) := by decide

/-- The whole of the data, and one byte more. -/
theorem test_witness_CrcCommandWritesCrcOut :
    fresh.Running ∧ 3 ≤ [1#8, 2#8, 3#8].length ∧ [1#8, 2#8, 3#8].length < 4 :=
  ⟨running_fresh, by decide, by decide⟩

theorem test_witness_ChecksumIgnoresLaterBytes : 2 ≤ [0xA0#8, 0xA5#8].length := by decide

theorem test_witness_BuiltFrameHasZeroResidue :
    4 ≤ smallCfg.specA.totalSize ∧ build [0x12#8, 0x34#8] smallCfg.specA = .ok frameA :=
  ⟨by decide, by rw [show frameA = _ from rfl]; decide +kernel⟩

/-- A flip in the last payload byte of `frameA`. -/
theorem test_witness_SingleByteErrorIsDetected :
    4 ≤ smallCfg.specA.totalSize ∧ build [0x12#8, 0x34#8] smallCfg.specA = .ok frameA
    ∧ 3 < smallCfg.specA.totalSize - 2 ∧ frameA[3]? ≠ some 0x35#8
    ∧ (frameA.set 3 0x35#8)[smallCfg.specA.totalSize - 2]? = some 0x2B#8
    ∧ (frameA.set 3 0x35#8)[smallCfg.specA.totalSize - 1]? = some 0x1C#8 :=
  ⟨by decide, by decide +kernel, by decide, by decide, by decide, by decide⟩

theorem test_witness_BuildWrapsThePayload :
    4 ≤ smallCfg.specA.totalSize ∧ [0x12#8, 0x34#8].length = smallCfg.specA.totalSize - 4
    ∧ [0x12#8].length ≠ smallCfg.specA.totalSize - 4 := by decide

theorem test_witness_TxAppendsOneFrame :
    fresh.Running ∧ fresh.cfg.valid = true ∧ [0xCA#8, 0xFE#8].length = fresh.cfg.specTx.totalSize - 4
    ∧ [0xCA#8].length ≠ fresh.cfg.specTx.totalSize - 4 := ⟨running_fresh, by decide, by decide, by decide⟩

theorem test_witness_TxAndCrcFrames :
    (∃ t, exec (.tx [0xCA#8, 0xFE#8]) { aAt 5 with txStream := frameA } = .next t ∧ t.txStream.length = 12)
    ∧ (0 < frameA.length) ∧ ∃ t, exec (.crc [1#8] 1) (aAt 5) = .next t ∧ t.fault = none :=
  ⟨exists_next _ (by decide +kernel), by decide, exists_next _ (by decide +kernel)⟩

theorem test_witness_TxAndCrcCommuteWithReceive :
    (aAt 5).Inv ∧ (aAt 5).Running
    ∧ ((∃ p : List Byte, Instr.tx [1#8, 2#8] = .tx p ∧ p.length = payloadLength (aAt 5).cfg.specTx)
      ∧ (∃ (d : List Byte) (n : Nat), Instr.crc [1#8] 1 = .crc d n ∧ n ≤ d.length))
    ∧ (∃ b, Instr.stepB 0x1C#8 = .stepB b) ∧ (∃ c, Instr.rxreset .a = .rxreset c) :=
  ⟨inv_a5, running_a 5, ⟨⟨_, rfl, by decide⟩, ⟨_, _, rfl, by decide⟩⟩, ⟨_, rfl⟩, ⟨_, rfl⟩⟩

/-- The frame of A with the longest silence before its second byte. -/
def streamA : List (Nat × Byte) := (9, 0xA0#8) :: (2, 0xA5#8) :: (frameA.drop 2).map (fun b => (0, b))

/-- The frame of B with the longest silence before its first byte. -/
def streamB : List (Nat × Byte) := (2, 0xAA#8) :: (2, 0x55#8) :: (frameB.drop 2).map (fun b => (0, b))

theorem shortGaps_of_check {cfg : Config} {stream : List (Nat × Byte)}
    (h : stream.all (fun x => decide (x.1 < cfg.timeoutTicks)) = true) : ShortGaps cfg stream := by
  simpa [ShortGaps, List.all_eq_true] using h

theorem test_witness_RoundTripThroughChannelA :
    fresh.Inv ∧ fresh.Running ∧ fresh.rx.a.state = .idle ∧ build [0x12#8, 0x34#8] fresh.cfg.specA = .ok frameA
    ∧ streamA.map Prod.snd = frameA ∧ ShortGaps fresh.cfg streamA.tail :=
  ⟨inv_fresh, running_fresh, rfl, by decide +kernel, by decide, shortGaps_of_check (by decide)⟩

theorem test_witness_RoundTripThroughChannelB :
    (bAt 0).Inv ∧ (bAt 0).Running ∧ (bAt 0).rx.a.state = .completed ∧ (bAt 0).rx.b.state = .idle
    ∧ build [0x56#8] (bAt 0).cfg.specB = .ok frameB ∧ streamB.map Prod.snd = frameB
    ∧ ShortGaps (bAt 0).cfg streamB.tail
    ∧ (∀ x, streamB.head? = some x → (bAt 0).gapCounter.toNat + x.1 < (bAt 0).cfg.timeoutTicks) :=
  ⟨inv_b0, running_b 0, by decide, by decide, by decide +kernel, by decide, shortGaps_of_check (by decide),
    fun x hx => by cases hx; decide⟩

theorem test_witness_CleanCycleCountsOneFrameEach :
    fresh.Inv ∧ fresh.Running ∧ fresh.rx.a.state = .idle ∧ fresh.rx.b.state = .idle
    ∧ streamA.map Prod.snd = hi8 fresh.cfg.specA.header :: lo8 fresh.cfg.specA.header :: frameA.drop 2
    ∧ streamA.length = fresh.cfg.specA.totalSize
    ∧ streamB.map Prod.snd = hi8 fresh.cfg.specB.header :: lo8 fresh.cfg.specB.header :: frameB.drop 2
    ∧ streamB.length = fresh.cfg.specB.totalSize
    ∧ ShortGaps fresh.cfg streamA.tail ∧ ShortGaps fresh.cfg streamB :=
  ⟨inv_fresh, running_fresh, rfl, rfl, by decide, by decide, by decide, by decide, shortGaps_of_check (by decide),
    shortGaps_of_check (by decide)⟩

/-- Two states that differ in channel B, in the streams and in what the driver does later. -/
theorem test_witness_ChannelAResultsIgnoreChannelB :
    AgreeOnA (bAt 0) { bAt 4 with txStream := frameA, crcOut := some 1#16 }
    ∧ (∃ t, exec (.stepB 0xB8#8) (bAt 0) = .next t ∧ t.rx.a.state = .completed)
    ∧ (∃ t, exec (.stepB 0xB8#8) { bAt 4 with txStream := frameA, crcOut := some 1#16 } = .next t
        ∧ t.rx.a.state = .idle)
    ∧ AgreeOnA (aAt 5) { aAt 5 with txStream := frameA } ∧ (aAt 5).rx.a.state ≠ .completed :=
  ⟨⟨rfl, rfl, rfl, rfl, rfl, rfl, rfl⟩, exists_next _ (by decide), exists_next _ (by decide +kernel),
    ⟨rfl, rfl, rfl, rfl, rfl, rfl, rfl⟩, by decide⟩

theorem test_witness_AtMostOneErrorEvent : (aAt 5).Inv ∧ errorEvents (.stepB 0x1D#8) (aAt 5) = [.checksumMismatch] :=
  ⟨inv_a5, by decide +kernel⟩

theorem test_witness_ChecksComeInOrder :
    reservedWord 0x401#12 = true ∧ fresh.Running ∧ fresh.Inv
    ∧ (∃ t, exec (.tx [1#8]) fresh = .next t ∧ t.fault = some .invalidPayloadLength)
    ∧ ∃ t, exec (.crc [] 1) fresh = .next t ∧ t.fault = some .crcLengthOutOfRange :=
  ⟨by decide, running_fresh, inv_fresh, exists_next _ (by decide), exists_next _ (by decide)⟩

end Sys2Proof.Tests
end

section
/-! Facts of the state family (10): what a command can write, said once, and the statements on `crc_out`, the reset
values, the configuration, the counters, `tick_counter`, the timestamps and `tx_stream` that follow from it. -/

namespace Sys2Proof.Machine

/-! ### The operations that have no field lemmas yet -/

@[simp] theorem rearm_tickCounter (ch : Channel) (s : State) : (rearm ch s).tickCounter = s.tickCounter := by
  cases ch <;> rfl
@[simp] theorem rearm_stats (ch : Channel) (s : State) : (rearm ch s).stats = s.stats := by cases ch <;> rfl
@[simp] theorem rearm_lastTs (ch : Channel) (s : State) : (rearm ch s).lastTs = s.lastTs := by cases ch <;> rfl

@[simp] theorem afterValid_tickCounter (ch : Channel) (m : Memory) (s : State) :
    (afterValid ch m s).tickCounter = s.tickCounter := rfl
@[simp] theorem afterValid_stats (ch : Channel) (m : Memory) (s : State) :
    (afterValid ch m s).stats
      = s.stats.set ch { s.stats.get ch with valid := inc s.cfg (s.stats.get ch).valid } := rfl
@[simp] theorem afterValid_lastTs (ch : Channel) (m : Memory) (s : State) :
    (afterValid ch m s).lastTs = s.lastTs.set ch s.tickCounter := rfl

/-- RESET applies `reset()` to each receiver (70 R240). -/
@[simp] theorem resetCommand_rx_get (s : State) (ch : Channel) :
    (resetCommand s).rx.get ch = resetReceiver (s.rx.get ch) := by cases ch <;> rfl
@[simp] theorem resetCommand_stats_get (s : State) (ch : Channel) :
    (resetCommand s).stats.get ch = Stats.zero := by cases ch <;> rfl
@[simp] theorem resetCommand_lastTs_get (s : State) (ch : Channel) :
    (resetCommand s).lastTs.get ch = 0#64 := by cases ch <;> rfl

@[simp] theorem resetCommand_gapCounter (s : State) : (resetCommand s).gapCounter = 0#32 := rfl
@[simp] theorem resetCommand_tickCounter (s : State) : (resetCommand s).tickCounter = 0#64 := rfl
@[simp] theorem resetCommand_out (s : State) : (resetCommand s).out = s.out := rfl
@[simp] theorem resetCommand_txStream (s : State) : (resetCommand s).txStream = s.txStream := rfl
@[simp] theorem resetCommand_crcOut (s : State) : (resetCommand s).crcOut = none := rfl
@[simp] theorem resetCommand_fault (s : State) : (resetCommand s).fault = s.fault := rfl
@[simp] theorem resetCommand_refused (s : State) : (resetCommand s).refused = s.refused := rfl

@[simp] theorem driverRead_cfg (o : Observable) (s : State) : (driverRead o s).cfg = s.cfg := by
  unfold driverRead; split <;> simp
@[simp] theorem driverRead_txStream (o : Observable) (s : State) : (driverRead o s).txStream = s.txStream := by
  unfold driverRead; split <;> simp

theorem inc_below {cfg : Config} {c : Nat} (h : c < statMax cfg) : inc cfg c = c + 1 := if_pos h

theorem inc_statMax_wrap {cfg : Config} (h : cfg.statOverflow = .wrap) : inc cfg (statMax cfg) = 0 := by
  simp [inc, h]

theorem inc_statMax_saturate {cfg : Config} (h : cfg.statOverflow = .saturate) :
    inc cfg (statMax cfg) = statMax cfg := by
  simp [inc, h]

/-! ### What a command can write -/

/-- Which fields each command may write, and what it writes to `tick_counter`, the stats, `tx_stream` and `refused`: a
next state of a command, by the command. The receive side that is not spelled out is left free. -/
inductive Writes (s : State) : Instr → State → Prop
  | step (rx : PerChannel Receiver) (gap : Word32) {stats : PerChannel Stats}
      (counted : stats = s.stats ∨ stats = (countAborted s).stats) :
      Writes s .step { s with tickCounter := s.tickCounter + 1#64, rx := rx, gapCounter := gap, stats := stats }
  | stepB (b : Byte) (rx : PerChannel Receiver) {stats : PerChannel Stats} (ts : PerChannel Word64)
      (out : PerChannel Memory)
      (counted : stats = s.stats ∨ stats = (countInvalid (route s) s).stats
        ∨ stats = (countValid (route s) s).stats) :
      Writes s (.stepB b)
        { s with tickCounter := s.tickCounter + 1#64, gapCounter := 0#32, rx := rx, stats := stats, lastTs := ts,
                 out := out }
  | rxreset (c : Channel) (rx : PerChannel Receiver) (gap : Word32) :
      Writes s (.rxreset c) { s with rx := rx, gapCounter := gap }
  | tx (payload frame : List Byte) : Writes s (.tx payload) { s with txStream := s.txStream ++ frame }
  | crc (data : List Byte) (len : Nat) (r : Word16) : Writes s (.crc data len) { s with crcOut := some r }
  | reset : Writes s .reset (resetCommand s)
  | reserved (w : CommandWord) : Writes s (.reserved w) { s with refused := true }
  | fault {i : Instr} {e : Fault} (raised : commandBody i s = .error e) : Writes s i { s with fault := some e }

theorem writes_stepCommand (s : State) : Writes s .step (stepCommand s) := by
  obtain ⟨-, h⟩ | ⟨-, -, h⟩ | ⟨-, -, h⟩ := stepCommand_cases s <;> rw [h]
  · exact .step s.rx s.gapCounter (.inl rfl)
  · exact .step s.rx _ (.inl rfl)
  · exact .step _ 0#32 (.inr rfl)

/-- The re-arm writes receivers only (42 R159). -/
theorem rearm_eq (ch : Channel) (s : State) : rearm ch s = { s with rx := (rearm ch s).rx } := by cases ch <;> rfl

theorem writes_stepByteCommand {s t : State} {b : Byte} (h : stepByteCommand b s = .ok t) :
    Writes s (.stepB b) t := by
  obtain ⟨_, r, -, ⟨-, rfl⟩ | ⟨-, -, rfl⟩ | ⟨-, -, m, -, rfl⟩⟩ := stepByteCommand_cases h
  · exact .stepB b _ s.lastTs s.out (.inl rfl)
  · rw [rearm_eq]
    exact .stepB b _ s.lastTs s.out (.inr (.inl rfl))
  · rw [rearm_eq]
    exact .stepB b _ _ _ (.inr (.inr rfl))

theorem writes_commandBody {i : Instr} {s t : State} (h : commandBody i s = .ok t) : Writes s i t := by
  cases i with
  | step => cases h; exact writes_stepCommand s
  | stepB b => exact writes_stepByteCommand h
  | rxreset c =>
    cases h
    cases c
    · exact .rxreset .a _ 0#32
    · exact .rxreset .b _ s.gapCounter
  | tx payload =>
    obtain ⟨f, -, rfl⟩ := txCommand_cases h
    exact .tx payload f
  | crc data len =>
    obtain ⟨-, rfl⟩ := checksumCommand_cases h
    exact .crc data len _
  | reset => cases h; exact .reset
  | reserved w => cases h; exact .reserved w

/-- The inversion of `exec` by fields. -/
theorem exec_writes {i : Instr} {s t : State} (h : exec i s = .next t) : Writes s i t := by
  obtain ⟨-, hbody | ⟨e, he, rfl⟩⟩ := exec_next h
  · exact writes_commandBody hbody
  · exact .fault he

/-- The inversion of `step`: nothing was pending, or the next action was a command or a read. -/
theorem step_next_cases {s t : State} (h : step s = .next t) :
    t = s
    ∨ (∃ c rest, s.input = .command c :: rest ∧ exec (decode c) { s with input := rest } = .next t)
    ∨ ∃ o rest, s.input = .read o :: rest ∧ t = driverRead o { s with input := rest } := by
  cases hin : s.input with
  | nil =>
    simp only [step, nextAction, hin] at h
    cases h
    exact .inl rfl
  | cons x rest =>
    simp only [step, nextAction, hin] at h
    cases x with
    | command c => exact .inr (.inl ⟨c, rest, rfl, h⟩)
    | read o => cases h; exact .inr (.inr ⟨o, rest, rfl, rfl⟩)

/-! ### `crc_out` (10 R32) -/

theorem exec_reset_next {s t : State} (h : exec .reset s = .next t) : t = resetCommand s := by
  cases exec_writes h with
  | reset => rfl
  | fault raised => cases raised

theorem exec_crc_crcOut {data : List Byte} {len : Nat} {s t : State} (hr : s.Running) (hl : len ≤ data.length)
    (h : exec (.crc data len) s = .next t) : t.crcOut = some (crcBytes 0xFFFF#16 (data.take len)) := by
  rw [exec_of_body_ok (i := .crc data len) hr (checksumCommand_ok s hl)] at h
  cases h
  rfl

theorem exec_crcOut_of_other {i : Instr} {s t : State} (hreset : i ≠ .reset) (hcrc : ∀ data len, i ≠ .crc data len)
    (h : exec i s = .next t) : t.crcOut = s.crcOut := by
  cases exec_writes h with
  | crc data len => exact absurd rfl (hcrc data len)
  | reset => exact absurd rfl hreset
  | step | stepB | rxreset | tx | reserved | fault => rfl

/-! ### The configuration (10 R34) -/

theorem valid_iff (cfg : Config) : cfg.valid = true ↔
    (∀ f ∈ [cfg.specA, cfg.specB, cfg.specTx], 4 ≤ f.totalSize ∧ f.totalSize ≤ 65535)
    ∧ 1 ≤ cfg.timeoutTicks ∧ cfg.timeoutTicks ≤ 2 ^ 32 - 1 ∧ 1 ≤ cfg.statW := by
  simp [Config.valid, FrameSpec.inRange, and_assoc]

theorem exec_cfg {i : Instr} {s t : State} (h : exec i s = .next t) : t.cfg = s.cfg := by
  cases exec_writes h <;> rfl

theorem step_cfg {s t : State} (h : step s = .next t) : t.cfg = s.cfg := by
  obtain rfl | ⟨c, rest, -, hc⟩ | ⟨o, rest, -, rfl⟩ := step_next_cases h
  · rfl
  · exact (exec_cfg hc).trans rfl
  · simp

theorem powerUp_refused_of_invalid {cfg : Config} (h : cfg.valid = false) : (State.powerUp cfg).refused = true := by
  simp [State.powerUp, h]

theorem exec_ne_next_of_refused {s : State} (h : s.refused = true) (i : Instr) (t : State) : exec i s ≠ .next t := by
  intro hn
  simpa [h] using (exec_next hn).1.notRefused

/-! ### The transmit stream (10 R31) -/

theorem exec_txStream {i : Instr} {s t : State} (h : exec i s = .next t) :
    t.txStream = s.txStream ∨ ∃ p f, i = .tx p ∧ t.txStream = s.txStream ++ f := by
  cases exec_writes h with
  | tx p f => exact .inr ⟨p, f, rfl, rfl⟩
  | step | stepB | rxreset | crc | reset | reserved | fault => exact .inl rfl

theorem step_txStream {s t : State} (h : step s = .next t) : ∃ f, t.txStream = s.txStream ++ f := by
  obtain rfl | ⟨c, rest, -, hc⟩ | ⟨o, rest, -, rfl⟩ := step_next_cases h
  · exact ⟨[], by simp⟩
  · obtain hsame | ⟨-, f, -, hf⟩ := exec_txStream hc
    · exact ⟨[], by simp [hsame]⟩
    · exact ⟨f, hf⟩
  · exact ⟨[], by simp⟩

/-! ### The stats counters (10 R26) -/

/-- A stats record after at most one `Inc` of each counter; `aborted` counts only where `mayAbort` holds. -/
structure Stats.IncOrSame (cfg : Config) (mayAbort : Prop) (old new : Stats) : Prop where
  valid : new.valid = old.valid ∨ new.valid = inc cfg old.valid
  invalid : new.invalid = old.invalid ∨ new.invalid = inc cfg old.invalid
  aborted : new.aborted = old.aborted ∨ (mayAbort ∧ new.aborted = inc cfg old.aborted)

theorem Stats.IncOrSame.refl (cfg : Config) (p : Prop) (x : Stats) : Stats.IncOrSame cfg p x x :=
  ⟨.inl rfl, .inl rfl, .inl rfl⟩

/-- Replacing the record of one channel by an `Inc` of it is, seen from any channel, an `Inc` or nothing. -/
theorem Stats.IncOrSame.set {cfg : Config} {p : Prop} {stats : PerChannel Stats} {c : Channel} {new : Stats}
    (ch : Channel) (h : ch = c → Stats.IncOrSame cfg p (stats.get ch) new) :
    Stats.IncOrSame cfg p (stats.get ch) ((stats.set c new).get ch) := by
  by_cases hc : ch = c
  · subst hc
    simpa using h rfl
  · rw [PerChannel.get_set_other _ hc]
    exact .refl ..

theorem exec_stats {i : Instr} {s t : State} (hreset : i ≠ .reset) (h : exec i s = .next t) (ch : Channel) :
    Stats.IncOrSame s.cfg (ch = .a ∧ i = .step) (s.stats.get ch) (t.stats.get ch) := by
  cases exec_writes h with
  | step rx gap counted =>
    obtain rfl | rfl := counted
    · exact .refl ..
    · exact .set ch fun hc => by subst hc; exact ⟨.inl rfl, .inl rfl, .inr ⟨⟨rfl, rfl⟩, rfl⟩⟩
  | stepB b rx ts out counted =>
    obtain rfl | rfl | rfl := counted
    · exact .refl ..
    · exact .set ch fun hc => by subst hc; exact ⟨.inl rfl, .inr rfl, .inl rfl⟩
    · exact .set ch fun hc => by subst hc; exact ⟨.inr rfl, .inl rfl, .inl rfl⟩
  | reset => exact absurd rfl hreset
  | rxreset | tx | crc | reserved | fault => exact .refl ..

/-! ### A tick completes from every state that meets the invariant (10 R23, R39) -/

theorem State.Inv.rxOk {s : State} (h : s.Inv) (ch : Channel) : Receiver.Ok (s.cfg.spec ch) (s.rx.get ch) := by
  cases ch
  · exact h.rxA
  · exact h.rxB

/-- Validation of a buffer whose bytes are all written answers (42 R156). -/
theorem validate_of_written {spec : FrameSpec} {r : Receiver} (hT : 4 ≤ spec.totalSize)
    (h : ∀ i, i < spec.totalSize → ∃ v, Memory.read r.buffer i = some v) : ∃ ok, validate spec r = .ok ok := by
  obtain ⟨x, hx⟩ := h (spec.totalSize - 2) (by omega)
  obtain ⟨y, hy⟩ := h (spec.totalSize - 1) (by omega)
  obtain ⟨body, hl, hbody⟩ := frame_of_written (n := crcCovered spec) fun i hi =>
    h i (by unfold crcCovered at hi; omega)
  have hrange : bufReadRange r 0 (crcCovered spec) = .ok body := by
    rw [← hl]
    exact bufReadRange_ok r 0 body fun k hk => by rw [Nat.zero_add]; exact hbody k (hl ▸ hk)
  exact ⟨decide (be16 x y = crcBytes 0xFFFF#16 body),
    by simp [validate, bufRead_of_read hx, bufRead_of_read hy, hrange, crc16_all body hl]⟩

/-- The payload copy of a buffer whose bytes are all written answers (42 R157). -/
theorem copyPayload_of_written {spec : FrameSpec} {r : Receiver} (m : Memory)
    (h : ∀ i, i < spec.totalSize → ∃ v, Memory.read r.buffer i = some v) :
    ∃ m', copyPayload spec r 0 (payloadLength spec) m = .ok m' := by
  obtain ⟨f, hl, hf⟩ := frame_of_written h
  have hpayload : ((f.drop 2).take (payloadLength spec)).length = payloadLength spec := by
    simp only [List.length_take, List.length_drop, hl, payloadLength]
    omega
  obtain ⟨m', hm', -⟩ := copyPayload_ok spec r 0 ((f.drop 2).take (payloadLength spec)) m (by omega) (by
    intro k hk
    rw [hpayload] at hk
    rw [hf _ (by unfold payloadLength at hk; omega), List.getElem?_take_of_lt hk, List.getElem?_drop]
    congr 1
    omega)
  exact ⟨m', by rwa [hpayload] at hm'⟩

/-- From the invariant a STEP.B body never faults (60 R218). -/
theorem stepByteCommand_of_inv {s : State} (h : s.Inv) (b : Byte) : ∃ t, stepByteCommand b s = .ok t := by
  have hT := valid_spec h.config (route s)
  obtain ⟨done, r, hfeed, hok, -, hdone, -⟩ := feedReceiver_ok hT (h.rxOk (route s)) b
  cases done with
  | false => exact ⟨_, stepByteCommand_of_feed_false hfeed⟩
  | true =>
    have hstate : r.state = .completed := by rw [hdone rfl]
    have hfull : r.fillCount.toNat = (s.cfg.spec (route s)).totalSize := by
      simpa only [FillMatchesState, hstate] using hok.fill
    have hwritten := hfull ▸ hok.written
    obtain ⟨matched, hv⟩ := validate_of_written hT.1 hwritten
    obtain ⟨m, hm⟩ := copyPayload_of_written (s.out.get (route s)) hwritten
    rw [stepByteCommand_of_feed_true hfeed]
    cases matched with
    | false => exact ⟨_, complete_of_invalid (by simpa using hv)⟩
    | true => exact ⟨_, complete_of_valid (by simpa using hv) (by simpa using hm)⟩

/-- From the invariant only TX and CRC fault (60 R219). -/
theorem commandBody_error_of_inv {i : Instr} {s : State} {e : Fault} (hs : s.Inv)
    (h : commandBody i s = .error e) : (∃ p, i = .tx p) ∨ ∃ data len, i = .crc data len := by
  cases i with
  | tx p => exact .inl ⟨p, rfl⟩
  | crc data len => exact .inr ⟨data, len, rfl⟩
  | stepB b =>
    obtain ⟨t, ht⟩ := stepByteCommand_of_inv hs b
    cases ht.symm.trans h
  | step | rxreset | reset | reserved => cases h

/-! ### Timestamps (10 R28) -/

theorem exec_lastTs_of_other {i : Instr} {s t : State} (hreset : i ≠ .reset) (hbyte : ∀ b, i ≠ .stepB b)
    (h : exec i s = .next t) : t.lastTs = s.lastTs := by
  cases exec_writes h with
  | stepB b => exact absurd rfl (hbyte b)
  | reset => exact absurd rfl hreset
  | step | rxreset | tx | crc | reserved | fault => rfl

/-- A STEP.B that changes a timestamp completed a frame of that channel whose CRC matches (42 R157). -/
theorem stepByteCommand_lastTs_changed {s t : State} {b : Byte} {ch : Channel} (h : stepByteCommand b s = .ok t)
    (hne : t.lastTs.get ch ≠ s.lastTs.get ch) :
    ch = route s ∧ ∃ r, feedReceiver (s.cfg.spec ch) b (s.rx.get ch) = .ok (true, r)
      ∧ validate (s.cfg.spec ch) r = .ok true
      ∧ t.tickCounter = s.tickCounter + 1#64
      ∧ t.lastTs.get ch = t.tickCounter
      ∧ (t.stats.get ch).valid = inc s.cfg (s.stats.get ch).valid := by
  obtain ⟨_, r, hfeed, ⟨-, rfl⟩ | ⟨-, -, rfl⟩ | ⟨rfl, hv, m, -, rfl⟩⟩ := stepByteCommand_cases h
  · exact absurd rfl hne
  · exact absurd (by simp) hne
  · have hch : ch = route s := by
      by_contra hc
      exact hne (by simp [PerChannel.get_set_other _ hc])
    subst hch
    exact ⟨rfl, r, hfeed, hv, by simp⟩

theorem feedReceiver_completes {spec : FrameSpec} {r r' : Receiver} {b : Byte}
    (hT : 4 ≤ spec.totalSize ∧ spec.totalSize ≤ 65535) (hr : Receiver.Ok spec r)
    (h : feedReceiver spec b r = .ok (true, r')) : r.state = .receiving ∧ r.fillCount.toNat + 1 = spec.totalSize := by
  obtain ⟨done, r'', hfeed, -, hdone, -⟩ := feedReceiver_ok hT hr b
  cases h.symm.trans hfeed
  exact hdone.1 rfl

theorem checksumMismatch_of_matched {s : State} {b : Byte} {r : Receiver}
    (hfeed : feedReceiver (s.cfg.spec (route s)) b (s.rx.get (route s)) = .ok (true, r))
    (hv : validate (s.cfg.spec (route s)) r = .ok true) : checksumMismatch b s = false := by
  simp [checksumMismatch, feed, hfeed, hv]

end Sys2Proof.Machine
end

section
/-! The obligations of the state family. -/

open Sys2Proof Sys2Proof.Machine

namespace Sys2Proof.Proofs

/-- Settles O11: only RESET and CRC write `crc_out`, by the inversion of `exec` by fields. -/
theorem crcOutReadFaultsWithoutValue : Obligations.CrcOutReadFaultsWithoutValue := by
  unfold Obligations.CrcOutReadFaultsWithoutValue
  refine ⟨fun _ => rfl, fun s t _ h => ?_, fun s t data len hr hl h => exec_crc_crcOut hr hl h,
    fun i s t hreset hcrc h => exec_crcOut_of_other hreset hcrc h, fun s h => ?_, fun s v h => ?_⟩
  · simp [exec_reset_next h]
  · simp [observe, h]
  · simp [observe, h]

/-- Settles O15: power-up by its definition, RESET by what it does to each field. -/
theorem resetValuesHold : Obligations.ResetValuesHold := by
  unfold Obligations.ResetValuesHold
  constructor
  · intro cfg ch hvalid
    cases ch <;> simp [State.powerUp, State.powered, Receiver.powered, Stats.zero, hvalid]
  · intro s ch hr
    exact ⟨resetCommand s, exec_of_body_ok hr rfl, by simp [Stats.zero]⟩

/-- Settles O20: no command and no driver read writes `cfg`, and a refused power-up is not running. -/
theorem configurationNeverChanges : Obligations.ConfigurationNeverChanges := by
  unfold Obligations.ConfigurationNeverChanges
  refine ⟨valid_iff, fun s t h => step_cfg h, fun cfg i t hv => ?_⟩
  have hrefused := powerUp_refused_of_invalid hv
  exact ⟨hrefused, exec_ne_next_of_refused hrefused i t⟩

/-- Settles O39: `Inc` below and at the maximum, and the inversion of `exec` by fields for the counters. -/
theorem counterWritesAreInc : Obligations.CounterWritesAreInc := by
  unfold Obligations.CounterWritesAreInc
  refine ⟨fun cfg c h => inc_below h, fun cfg h => inc_statMax_wrap h, fun cfg h => inc_statMax_saturate h,
    fun i s t ch h hreset => ?_⟩
  obtain ⟨hvalid, hinvalid, haborted⟩ := exec_stats hreset h ch
  exact ⟨hvalid, hinvalid, by simpa only [and_assoc] using haborted⟩

/-- Settles O41: the inversion of `exec` by fields; a tick does not fault from the invariant. -/
theorem tickCountsTicksOnly : Obligations.TickCountsTicksOnly := by
  unfold Obligations.TickCountsTicksOnly
  intro i s t hs h
  cases exec_writes h with
  | fault raised =>
    obtain ⟨p, rfl⟩ | ⟨data, len, rfl⟩ := commandBody_error_of_inv hs raised <;> rfl
  | step | stepB => exact BitVec.toNat_add _ _
  | rxreset | tx | crc | reset | reserved => rfl

/-- Settles O42: RESET clears the timestamps, and any other change is a valid completion of the routed channel. -/
theorem timestampsMarkValidFrames : Obligations.TimestampsMarkValidFrames := by
  unfold Obligations.TimestampsMarkValidFrames
  intro i s t ch hs h hne
  by_cases hreset : i = .reset
  · subst hreset
    exact .inl ⟨rfl, by simp [exec_reset_next h]⟩
  · by_cases hbyte : ∃ b, i = .stepB b
    · obtain ⟨b, rfl⟩ := hbyte
      obtain ⟨-, hbody | ⟨e, -, rfl⟩⟩ := exec_next h
      · obtain ⟨rfl, r, hfeed, hv, htick, hts, hcount⟩ := stepByteCommand_lastTs_changed hbody hne
        obtain ⟨hstate, hfill⟩ := feedReceiver_completes (valid_spec hs.config _) (hs.rxOk _) hfeed
        exact .inr ⟨b, rfl, rfl, hts, htick, hstate, hfill, checksumMismatch_of_matched hfeed hv, hcount⟩
      · exact absurd rfl hne
    · exact absurd (by rw [exec_lastTs_of_other hreset (not_exists.1 hbyte) h]) hne

/-- Settles O44: only TX writes `tx_stream`, and it appends. -/
theorem transmitStreamOnlyGrows : Obligations.TransmitStreamOnlyGrows := by
  unfold Obligations.TransmitStreamOnlyGrows
  refine ⟨fun s t h => step_txStream h, fun i s t h hne => ?_⟩
  obtain hsame | ⟨p, -, hp, -⟩ := exec_txStream h
  · exact absurd hsame hne
  · exact ⟨p, hp⟩

end Sys2Proof.Proofs
end

section
/-! Facts of the encoding family (30): a word and its three fields, the words that the command map holds, and the words
of the pseudo-instructions. -/

namespace Sys2Proof

/-! ### A word and its fields (30 R75) -/

theorem commandWord_fields (w : CommandWord) : commandWord (opField w) (vField w) (dField w) = w :=
  calc
    w.extractLsb' 9 3 ++ w.extractLsb' 8 1 ++ w.extractLsb' 0 8
      = w.extractLsb' 8 4 ++ w.extractLsb' 0 8 :=
        congrArg (· ++ w.extractLsb' 0 8) (BitVec.extractLsb'_append_extractLsb'_eq_extractLsb' rfl)
    _ = w := BitVec.extractLsb'_append_extractLsb' (w := 4) (len := 8)

theorem commandWord_inj {op op' : BitVec 3} {v v' : BitVec 1} {d d' : Byte} :
    commandWord op v d = commandWord op' v' d' ↔ op = op' ∧ v = v' ∧ d = d' := by
  constructor
  · intro h
    exact ⟨by simpa using congrArg opField h, by simpa using congrArg vField h, by simpa using congrArg dField h⟩
  · rintro ⟨rfl, rfl, rfl⟩
    rfl

theorem commandWord_and (op op' : BitVec 3) (v v' : BitVec 1) (d d' : Byte) :
    commandWord op v d &&& commandWord op' v' d' = commandWord (op &&& op') (v &&& v') (d &&& d') :=
  BitVec.and_append.trans (congrArg (· ++ (d &&& d')) BitVec.and_append)

theorem commandWord_or (op op' : BitVec 3) (v v' : BitVec 1) (d d' : Byte) :
    commandWord op v d ||| commandWord op' v' d' = commandWord (op ||| op') (v ||| v') (d ||| d') :=
  BitVec.or_append.trans (congrArg (· ++ (d ||| d')) BitVec.or_append)

/-- A mask on `v` and `d` leaves nothing of a word exactly when it leaves nothing of either field. -/
theorem and_mask_eq_zero (w : CommandWord) (v : BitVec 1) (d : Byte) :
    w &&& commandWord 0#3 v d = 0#12 ↔ vField w &&& v = 0#1 ∧ dField w &&& d = 0#8 := by
  have hzero : (0#12 : CommandWord) = commandWord 0#3 0#1 0#8 := rfl
  conv_lhs => rw [← commandWord_fields w, commandWord_and, hzero, commandWord_inj]
  simp

theorem toNat_shiftRight_nine (w : CommandWord) : (w >>> 9).toNat = (opField w).toNat := by
  have := w.isLt
  simp only [opField, BitVec.extractLsb'_toNat, BitVec.toNat_ushiftRight, Nat.shiftRight_eq_div_pow]
  omega

theorem getLsbD_eight (w : CommandWord) : w.getLsbD 8 = (vField w).getLsbD 0 := by
  simp [vField]

theorem and_0xFE_eq_zero (d : Byte) : d &&& 0xFE#8 = 0#8 ↔ d.extractLsb' 1 7 = 0#7 := by
  revert d
  decide

theorem setWidth_twelve (b : Byte) : b.setWidth 12 = commandWord 0#3 0#1 b :=
  BitVec.setWidth_eq_append (w := 12) (by decide)

theorem and_0x0FF_eq_zero (w : CommandWord) : w &&& 0x0FF#12 = 0#12 ↔ dField w = 0#8 :=
  (and_mask_eq_zero w 0#1 (BitVec.allOnes 8)).trans (by simp only [BitVec.and_allOnes, BitVec.and_zero, true_and])

theorem and_0x1FF_eq_zero (w : CommandWord) : w &&& 0x1FF#12 = 0#12 ↔ vField w = 0#1 ∧ dField w = 0#8 :=
  (and_mask_eq_zero w (BitVec.allOnes 1) (BitVec.allOnes 8)).trans (by simp only [BitVec.and_allOnes])

theorem and_0x1FE_eq_zero (w : CommandWord) :
    w &&& 0x1FE#12 = 0#12 ↔ vField w = 0#1 ∧ (dField w).extractLsb' 1 7 = 0#7 :=
  (and_mask_eq_zero w (BitVec.allOnes 1) 0xFE#8).trans (by rw [BitVec.and_allOnes, and_0xFE_eq_zero])

/-! ### The command map (30 R76) and the words outside it (30 R78) -/

/-- The rows of 30 R76 by their fields: STEP, STEP.B, RXRESET, and TX, CRC, RESET. -/
def InCommandMap (op : BitVec 3) (v : BitVec 1) (d : Byte) : Prop :=
  (op = 0b000#3 ∧ v = 0#1 ∧ d = 0#8)
  ∨ (op = 0b000#3 ∧ v = 1#1)
  ∨ (op = 0b001#3 ∧ v = 0#1 ∧ d.extractLsb' 1 7 = 0#7)
  ∨ (op = 0b010#3 ∧ v = 0#1 ∧ d = 0#8)
  ∨ (op = 0b011#3 ∧ v = 0#1 ∧ d = 0#8)
  ∨ (op = 0b111#3 ∧ v = 0#1 ∧ d = 0#8)

/-- Each branch of the decoder but the last is a row of the map. -/
theorem decode_eq_reserved_iff {c : Command} {w : CommandWord} :
    decode c = .reserved w ↔ ¬ InCommandMap (opField c.word) (vField c.word) (dField c.word) ∧ c.word = w := by
  unfold decode InCommandMap
  dsimp only
  split_ifs <;> simp [*]

theorem op_cases : ∀ op : BitVec 3, op = 0b000#3 ∨ op = 0b001#3 ∨ op = 0b010#3 ∨ op = 0b011#3
    ∨ op = 0b100#3 ∨ op = 0b101#3 ∨ op = 0b110#3 ∨ op = 0b111#3 := by decide

theorem reservedWord_iff (w : CommandWord) :
    reservedWord w = true ↔ ¬ InCommandMap (opField w) (vField w) (dField w) := by
  unfold reservedWord
  rw [toNat_shiftRight_nine]
  obtain h | h | h | h | h | h | h | h := op_cases (opField w) <;> rw [h]
  · rw [getLsbD_eight]
    obtain hv | hv := BitVec.eq_zero_or_eq_one (vField w) <;> simp [InCommandMap, hv, and_0x0FF_eq_zero]
  · simp [InCommandMap, and_0x1FE_eq_zero]
  · simp [InCommandMap, and_0x1FF_eq_zero]
  · simp [InCommandMap, and_0x1FF_eq_zero]
  · simp [InCommandMap]
  · simp [InCommandMap]
  · simp [InCommandMap]
  · simp [InCommandMap, and_0x1FF_eq_zero]

/-! ### The pseudo-instructions (30 R81) -/

theorem encodeWord_step : encodeWord .step = 0x000#12 := rfl

theorem encodeWord_stepB (b : Byte) : encodeWord (.stepB b) = 0x100#12 ||| b.setWidth 12 := by
  have h100 : 0x100#12 = commandWord 0b000#3 1#1 0#8 := rfl
  rw [h100, setWidth_twelve, commandWord_or]
  simp [encodeWord]

end Sys2Proof

namespace Sys2Proof.Machine

theorem exec_reserved {s : State} (hr : s.Running) (w : CommandWord) :
    exec (.reserved w) s = .next { s with refused := true } :=
  exec_of_body_ok hr rfl

theorem map_encodeWord_feedAll (bs : List Byte) :
    (feedAll bs).map encodeWord = bs.map (fun b => 0x100#12 ||| b.setWidth 12) := by
  simp [feedAll, encodeWord_stepB]

theorem map_encodeWord_waitTicks (n : Nat) : (waitTicks n).map encodeWord = List.replicate n 0x000#12 := by
  simp [waitTicks, encodeWord_step]

theorem feedFrame_of_build {cfg : Config} {x : FrameShape} {payload f : List Byte}
    (h : build payload (shapeSpec cfg x) = .ok f) : feedFrame cfg x payload = .ok (feedAll f) := by
  simp [feedFrame, h]

end Sys2Proof.Machine
end

section
/-! The obligations of the encoding family. -/

open Sys2Proof Sys2Proof.Machine

namespace Sys2Proof.Proofs

/-- Settles O4: `reservedWord` holds exactly of the words outside the command map, and those are the ones that the
decoder answers `reserved` for. -/
theorem reservedExactlyOutsideTheMap : Obligations.ReservedExactlyOutsideTheMap := by
  unfold Obligations.ReservedExactlyOutsideTheMap
  refine fun c => ⟨fun h => ?_, fun h w hw => ?_⟩
  · have hdecode : decode c = .reserved c.word := decode_eq_reserved_iff.2 ⟨(reservedWord_iff c.word).1 h, rfl⟩
    exact ⟨hdecode, fun s hr => by rw [hdecode, exec_reserved hr]⟩
  · have hreserved := (reservedWord_iff c.word).2 (decode_eq_reserved_iff.1 hw).1
    simp [h] at hreserved

/-- Settles O5: the words of STEP and STEP.B, mapped over the expansions. -/
theorem pseudoInstructionsExpand : Obligations.PseudoInstructionsExpand := by
  unfold Obligations.PseudoInstructionsExpand
  exact ⟨map_encodeWord_feedAll, map_encodeWord_waitTicks, fun _ _ _ _ h => feedFrame_of_build h⟩

end Sys2Proof.Proofs
end

section
/-! Facts of the checksum family (40): what `crc16` answers at length 0 and past a prefix, and what CRC does with each
answer. -/

namespace Sys2Proof.Machine

theorem encodeWord_crc (data : List Byte) (len : Nat) : encodeWord (.crc data len) = 0x600#12 := rfl

/-- No byte is read at length 0, so the register keeps its start value (40 R101). -/
theorem crc16_zero (data : List Byte) : crc16 data 0 = .ok 0xFFFF#16 := by
  rw [crc16_ok (Nat.zero_le _), List.take_zero, crcBytes_nil]

theorem crc16_append {data : List Byte} {len : Nat} (extra : List Byte) (h : len ≤ data.length) :
    crc16 (data ++ extra) len = crc16 data len := by
  have hlen : len ≤ (data ++ extra).length := by
    rw [List.length_append]
    exact Nat.le_add_right_of_le h
  rw [crc16_ok hlen, crc16_ok h, List.take_append_of_le_length h]

theorem exec_crc_of_ok {data : List Byte} {len : Nat} {c : Word16} {s : State} (hr : s.Running)
    (h : crc16 data len = .ok c) : exec (.crc data len) s = .next { s with crcOut := some c } :=
  exec_of_body_ok hr (by simp [commandBody, checksumCommand, h])

theorem exec_crc_of_error {data : List Byte} {len : Nat} {e : Fault} {s : State} (hr : s.Running)
    (h : crc16 data len = .error e) : exec (.crc data len) s = .next { s with fault := some e } :=
  exec_of_body_error hr (by simp [commandBody, checksumCommand, h])

end Sys2Proof.Machine
end

section
/-! The obligations of the checksum family. -/

open Sys2Proof Sys2Proof.Machine

namespace Sys2Proof.Proofs

/-- Settles O46: CRC records what `crc16` answers, and `crc16` faults exactly beyond the data. -/
theorem crcCommandWritesCrcOut : Obligations.CrcCommandWritesCrcOut := by
  unfold Obligations.CrcCommandWritesCrcOut
  intro data len s hr
  refine ⟨encodeWord_crc data len, exec_crc_of_ok hr (crc16_zero data), fun hle => ?_, fun hlt => ?_⟩
  · exact ⟨_, crc16_ok hle, exec_crc_of_ok hr (crc16_ok hle)⟩
  · exact exec_crc_of_error hr (crc16_error hlt)

/-- Settles O47: the first `len` bytes are those of the shorter data, and no byte is read at length 0. -/
theorem checksumIgnoresLaterBytes : Obligations.ChecksumIgnoresLaterBytes := by
  unfold Obligations.ChecksumIgnoresLaterBytes
  exact ⟨fun _ extra _ hle => crc16_append extra hle, crc16_zero⟩

end Sys2Proof.Proofs
end

section
/-! Facts of the receiver family (41): the fill count that each state has, and what RXRESET does to each channel and to a
receiver that is `Idle`. -/

namespace Sys2Proof.Machine

/-! ### The fill count of each state (10 R23) -/

theorem FillMatchesState.of_idle {spec : FrameSpec} {r : Receiver} (h : FillMatchesState spec r)
    (hs : r.state = .idle) : r.fillCount = 0#16 := by
  simpa only [FillMatchesState, hs] using h

theorem FillMatchesState.of_starting {spec : FrameSpec} {r : Receiver} (h : FillMatchesState spec r)
    (hs : r.state = .starting) : r.fillCount = 1#16 := by
  simpa only [FillMatchesState, hs] using h

theorem FillMatchesState.of_receiving {spec : FrameSpec} {r : Receiver} (h : FillMatchesState spec r)
    (hs : r.state = .receiving) : 2 ≤ r.fillCount.toNat ∧ r.fillCount.toNat ≤ spec.totalSize - 1 := by
  simpa only [FillMatchesState, hs] using h

/-! ### RXRESET (41 R127) -/

theorem encodeWord_rxreset_a : encodeWord (.rxreset .a) = 0x200#12 := rfl

theorem encodeWord_rxreset_b : encodeWord (.rxreset .b) = 0x201#12 := rfl

theorem exec_rxreset {s : State} (hr : s.Running) (c : Channel) : exec (.rxreset c) s = .next (rxresetCommand c s) :=
  exec_of_body_ok hr rfl

theorem rxresetCommand_a (s : State) :
    rxresetCommand .a s
      = { s with rx := { s.rx with a := { s.rx.a with state := .idle, fillCount := 0#16 } }, gapCounter := 0#32 } := rfl

theorem rxresetCommand_b (s : State) :
    rxresetCommand .b s
      = { s with rx := { s.rx with b := { s.rx.b with state := .idle, fillCount := 0#16 } } } := rfl

theorem resetReceiver_of_idle {spec : FrameSpec} {r : Receiver} (h : FillMatchesState spec r)
    (hs : r.state = .idle) : resetReceiver r = r := by
  rw [resetReceiver, ← hs, ← h.of_idle hs]

theorem resetChannel_of_idle {s : State} {c : Channel} (hi : s.Inv) (hs : (s.rx.get c).state = .idle) :
    resetChannel c s = s := by
  rw [resetChannel, resetReceiver_of_idle (hi.rxOk c).fill hs, PerChannel.set_get]

/-- No gap is counted while A is `Idle` (10 R40). -/
theorem State.Inv.gapCounter_of_idle {s : State} (hi : s.Inv) (hs : s.rx.a.state = .idle) : s.gapCounter = 0#32 := by
  by_contra hgap
  exact hi.gapWhileBusy hgap hs

theorem rxresetCommand_of_idle {s : State} {c : Channel} (hi : s.Inv) (hs : (s.rx.get c).state = .idle) :
    rxresetCommand c s = s := by
  cases c with
  | a => rw [rxresetCommand, resetChannel_of_idle hi hs, ← hi.gapCounter_of_idle hs]
  | b => exact resetChannel_of_idle hi hs

end Sys2Proof.Machine
end

section
/-! The obligations of the receiver family. -/

open Sys2Proof Sys2Proof.Machine

namespace Sys2Proof.Proofs

/-- Settles O25: the feed's law for each state, with the fill count that the state has. -/
theorem feedFollowsTheReceiverStates : Obligations.FeedFollowsTheReceiverStates := by
  unfold Obligations.FeedFollowsTheReceiverStates
  intro spec r b hmin hmax hfill
  refine ⟨fun hs hb => ?_, fun hs hb => ?_, fun hs hb => ?_, fun hs hb => ?_, fun hs hmore => ?_,
    fun hs hlast => ?_, fun hs => ?_⟩
  · exact feedReceiver_idle_match hmin hs (hfill.of_idle hs) hb
  · exact feedReceiver_idle_other hs hb
  · exact feedReceiver_starting_match hmin hs (hfill.of_starting hs) hb
  · exact feedReceiver_starting_other hs hb
  · obtain ⟨-, hbelow⟩ := hfill.of_receiving hs
    exact feedReceiver_receiving hmax hs (by omega) b
  · exact feedReceiver_last hmax hs hlast b
  · exact feedReceiver_completed hs b

/-- Settles O26: RXRESET never faults; on an `Idle` receiver the invariant gives each written field its value already. -/
theorem rxresetResetsOneReceiver : Obligations.RxresetResetsOneReceiver := by
  unfold Obligations.RxresetResetsOneReceiver
  refine ⟨encodeWord_rxreset_a, encodeWord_rxreset_b, fun s hr => ⟨fun c hi hs => ?_, ?_, ?_⟩⟩
  · rw [exec_rxreset hr, rxresetCommand_of_idle hi hs]
  · rw [exec_rxreset hr, rxresetCommand_a]
  · rw [exec_rxreset hr, rxresetCommand_b]

end Sys2Proof.Proofs
end

section
/-! Facts of the orchestrator family (42): the routing, STEP as a command, and the byte that completes a frame, from the
receiver that it leaves to the state that the command answers. -/

namespace Sys2Proof.Machine

/-! ### Routing (42 R154) -/

theorem route_of_completed {s : State} (h : s.rx.a.state = .completed) : route s = .b := if_pos h

theorem route_of_not_completed {s : State} (h : s.rx.a.state ≠ .completed) : route s = .a := if_neg h

/-! ### STEP (42 R151, R152) -/

theorem exec_step {s : State} (hr : s.Running) : exec .step s = .next (stepCommand s) := exec_of_body_ok hr rfl

theorem timeoutAbort_eq (s : State) :
    timeoutAbort s
      = { s with
          gapCounter := 0#32
          rx := { s.rx with a := { s.rx.a with state := .idle, fillCount := 0#16 } }
          stats := { s.stats with a := { s.stats.a with aborted := inc s.cfg s.stats.a.aborted } } } := rfl

/-! ### The last byte of a frame (41 R124, R128) -/

theorem State.Inv.outOk {s : State} (h : s.Inv) (ch : Channel) : OutOk (s.cfg.spec ch) (s.out.get ch) := by
  cases ch
  · exact h.outA
  · exact h.outB

/-- A write at the end of the bytes that a store holds appends to them. -/
theorem Memory.read_write_length {m : Memory} {f : List Byte} (h : ∀ k, k < f.length → Memory.read m k = f[k]?)
    (b : Byte) {k : Nat} (hk : k < f.length + 1) : Memory.read (Memory.write m f.length b) k = (f ++ [b])[k]? := by
  obtain hlt | rfl := Nat.lt_succ_iff_lt_or_eq.1 hk
  · rw [Memory.read_write_other m hlt.ne, h k hlt, List.getElem?_append_left hlt]
  · rw [Memory.read_write_same, List.getElem?_concat_length]

/-- The receiver that the byte `b` leaves when it completes a frame. -/
def Receiver.completedBy (r : Receiver) (b : Byte) : Receiver :=
  { state := .completed, buffer := Memory.write r.buffer r.fillCount.toNat b, fillCount := r.fillCount + 1#16 }

/-- The machine is one byte short of a frame on the routed channel: the receiver has taken `body`, which the CRC covers,
and `x`, the first byte of the trailing CRC. -/
structure LastByteDue (s : State) (body : List Byte) (x : Byte) : Prop where
  inv : s.Inv
  running : s.Running
  receiving : (s.rx.get (route s)).state = .receiving
  fill : (s.rx.get (route s)).fillCount.toNat + 1 = (s.cfg.spec (route s)).totalSize
  total : body.length + 2 = (s.cfg.spec (route s)).totalSize
  taken : ∀ k, k < (s.rx.get (route s)).fillCount.toNat →
    Memory.read (s.rx.get (route s)).buffer k = (body ++ [x])[k]?

namespace LastByteDue

variable {s : State} {body : List Byte} {x : Byte}

theorem totalSize_bounds (h : LastByteDue s body x) :
    4 ≤ (s.cfg.spec (route s)).totalSize ∧ (s.cfg.spec (route s)).totalSize ≤ 65535 :=
  valid_spec h.inv.config (route s)

theorem length_taken (h : LastByteDue s body x) :
    (body ++ [x]).length = (s.rx.get (route s)).fillCount.toNat := by
  rw [List.length_append, List.length_singleton]
  exact Nat.succ.inj (h.total.trans h.fill.symm)

/-- With the last byte `b` the buffer holds the whole frame. -/
theorem read_completedBy (h : LastByteDue s body x) (b : Byte) {k : Nat}
    (hk : k < (s.cfg.spec (route s)).totalSize) :
    Memory.read ((s.rx.get (route s)).completedBy b).buffer k = (body ++ [x, b])[k]? := by
  have htaken := h.taken
  rw [← h.fill, ← h.length_taken] at hk
  rw [← h.length_taken] at htaken
  rw [Receiver.completedBy, ← h.length_taken, Memory.read_write_length htaken b hk, List.append_assoc,
    List.singleton_append]

theorem fillCount_completedBy (h : LastByteDue s body x) (b : Byte) :
    ((s.rx.get (route s)).completedBy b).fillCount.toNat = (s.cfg.spec (route s)).totalSize := by
  have hfits : (s.rx.get (route s)).fillCount.toNat + 1 < 2 ^ 16 :=
    Nat.lt_succ_of_le (h.fill.trans_le h.totalSize_bounds.2)
  exact (BitVec.toNat_add_of_lt hfits).trans h.fill

theorem feed_completes (h : LastByteDue s body x) (b : Byte) :
    feedReceiver (s.cfg.spec (route s)) b (s.rx.get (route s)) = .ok (true, (s.rx.get (route s)).completedBy b) :=
  feedReceiver_last h.totalSize_bounds.2 h.receiving h.fill b

theorem validate_completedBy (h : LastByteDue s body x) (b : Byte) :
    validate (s.cfg.spec (route s)) ((s.rx.get (route s)).completedBy b)
      = .ok (decide (be16 x b = crcBytes 0xFFFF#16 body)) :=
  validate_ok h.totalSize_bounds.1 (by have := h.total; omega) fun _ hk => h.read_completedBy b hk

/-- The payload is what follows the two header bytes in `body` (42 R157). -/
theorem copy_payload (h : LastByteDue s body x) (b : Byte) :
    ∃ m, copyPayload (s.cfg.spec (route s)) ((s.rx.get (route s)).completedBy b) 0
        (payloadLength (s.cfg.spec (route s))) (s.out.get (route s)) = .ok m
      ∧ Memory.wf m ∧ ∀ k, Memory.read m k = (body.drop 2)[k]? := by
  have htotal := h.total
  have hout := h.inv.outOk (route s)
  have hlength : (body.drop 2).length = payloadLength (s.cfg.spec (route s)) := by
    rw [List.length_drop, payloadLength]
    omega
  have hpayload : ∀ k, k < (body.drop 2).length →
      Memory.read ((s.rx.get (route s)).completedBy b).buffer (k + 2) = (body.drop 2)[k]? := by
    intro k hk
    rw [List.length_drop] at hk
    rw [h.read_completedBy b (by omega), List.getElem?_append_left (by omega), List.getElem?_drop, Nat.add_comm]
  obtain ⟨m, hcopy, hread, hwf, -⟩ := copyPayload_frame hlength hout.inStore hpayload
  exact ⟨m, hcopy, hwf hout.wf, hread⟩

/-- STEP.B of the last byte is the completion (42 R153, R155). -/
theorem exec_stepB {b : Byte} {t : State} (h : LastByteDue s body x)
    (hcomplete : complete (route s) (afterFeed s ((s.rx.get (route s)).completedBy b)) = .ok t) :
    exec (.stepB b) s = .next t :=
  exec_of_body_ok h.running ((stepByteCommand_of_feed_true (h.feed_completes b)).trans hcomplete)

/-- A trailing CRC that does not match (42 R158, R159). -/
theorem exec_stepB_mismatch {b : Byte} (h : LastByteDue s body x) (hcrc : be16 x b ≠ crcBytes 0xFFFF#16 body) :
    exec (.stepB b) s
      = .next (rearm (route s) (countInvalid (route s) (afterFeed s ((s.rx.get (route s)).completedBy b)))) := by
  have hvalidate := h.validate_completedBy b
  rw [decide_eq_false hcrc] at hvalidate
  exact h.exec_stepB (complete_of_invalid (by simpa using hvalidate))

/-- A trailing CRC that matches (42 R157, R159). -/
theorem exec_stepB_match {b : Byte} (h : LastByteDue s body x) (hcrc : be16 x b = crcBytes 0xFFFF#16 body) :
    ∃ m, Memory.wf m ∧ (∀ k, Memory.read m k = (body.drop 2)[k]?) ∧
      exec (.stepB b) s
        = .next (rearm (route s) (afterValid (route s) m (afterFeed s ((s.rx.get (route s)).completedBy b)))) := by
  have hvalidate := h.validate_completedBy b
  rw [decide_eq_true hcrc] at hvalidate
  obtain ⟨m, hcopy, hwf, hread⟩ := h.copy_payload b
  exact ⟨m, hwf, hread, h.exec_stepB (complete_of_valid (by simpa using hvalidate) (by simpa using hcopy))⟩

/-- What both outcomes share: the re-arm of a state with the completed receiver, no gap, and one count. -/
theorem exec_stepB_rearms (h : LastByteDue s body x) (b : Byte) :
    ∃ t, exec (.stepB b) s = .next (rearm (route s) t)
      ∧ t.rx = s.rx.set (route s) ((s.rx.get (route s)).completedBy b)
      ∧ t.gapCounter = 0#32
      ∧ (be16 x b = crcBytes 0xFFFF#16 body → t.stats = (countValid (route s) s).stats)
      ∧ (be16 x b ≠ crcBytes 0xFFFF#16 body → t.stats = (countInvalid (route s) s).stats) := by
  by_cases hcrc : be16 x b = crcBytes 0xFFFF#16 body
  · obtain ⟨m, -, -, hexec⟩ := h.exec_stepB_match hcrc
    exact ⟨_, hexec, rfl, rfl, fun _ => rfl, absurd hcrc⟩
  · exact ⟨_, h.exec_stepB_mismatch hcrc, rfl, rfl, fun hmatch => absurd hmatch hcrc, fun _ => rfl⟩

end LastByteDue

/-! ### The re-arm (42 R159) -/

theorem rearm_a (s : State) : rearm .a s = s := rfl

theorem rearm_b_rx (s : State) : (rearm .b s).rx = { a := resetReceiver s.rx.a, b := resetReceiver s.rx.b } := rfl

@[simp] theorem rearm_gapCounter (ch : Channel) (s : State) : (rearm ch s).gapCounter = s.gapCounter := by
  cases ch <;> rfl

end Sys2Proof.Machine
end

section
/-! The obligations of the orchestrator family. -/

open Sys2Proof Sys2Proof.Machine

namespace Sys2Proof.Proofs

/-- Settles O22: one equation of the STEP body for each of the three cases. -/
theorem stepCountsGapsAndTimesOut : Obligations.StepCountsGapsAndTimesOut := by
  unfold Obligations.StepCountsGapsAndTimesOut
  refine ⟨encodeWord_step, fun s hr => ⟨fun hidle => ?_, fun hbusy hbelow => ?_, fun hbusy hreached => ?_⟩⟩
  · rw [exec_step hr, stepCommand_idle hidle, tick]
  · rw [exec_step hr, stepCommand_gap hbusy hbelow, tick]
  · rw [exec_step hr, stepCommand_timeout hbusy hreached, timeoutAbort_eq, tick]

/-- Settles O29: the two branches of `route`. -/
theorem routeReadsOnlyChannelA : Obligations.RouteReadsOnlyChannelA := by
  unfold Obligations.RouteReadsOnlyChannelA
  exact fun s => ⟨route_of_completed, route_of_not_completed⟩

/-- Settles O32: the completion with a matching CRC, whose covered bytes are the two header bytes and the payload. -/
theorem validFrameIsDelivered : Obligations.ValidFrameIsDelivered := by
  unfold Obligations.ValidFrameIsDelivered
  intro s b x payload hs hr hstate hfill hpayload htaken hcrc
  have hmin := (valid_spec hs.config (route s)).1
  rw [payloadLength] at hpayload
  have hdue : LastByteDue s (hi8 (s.cfg.spec (route s)).header :: lo8 (s.cfg.spec (route s)).header :: payload) x :=
    ⟨hs, hr, hstate, hfill, by simp only [List.length_cons]; omega, htaken⟩
  obtain ⟨m, hwf, hread, hexec⟩ := hdue.exec_stepB_match hcrc
  refine ⟨m, hwf, hread, hexec.trans (congrArg _ ?_)⟩
  unfold afterFeed
  cases route s <;> rfl

/-- Settles O33: the completion with a CRC that does not match. -/
theorem invalidFrameIsCountedAndDiscarded : Obligations.InvalidFrameIsCountedAndDiscarded := by
  unfold Obligations.InvalidFrameIsCountedAndDiscarded
  intro s b x body hs hr hstate hfill hbody htaken hcrc
  have hdue : LastByteDue s body x := ⟨hs, hr, hstate, hfill, hbody, htaken⟩
  rw [hdue.exec_stepB_mismatch hcrc]
  refine congrArg _ ?_
  unfold afterFeed
  cases route s <;> rfl

/-- Settles O34: the bytes taken are what the CRC covers and the first CRC byte; both outcomes re-arm. -/
theorem completionValidatesThenRearms : Obligations.CompletionValidatesThenRearms := by
  unfold Obligations.CompletionValidatesThenRearms
  intro s b taken hs hr hstate hfill htotal htaken
  have hmin := (valid_spec hs.config (route s)).1
  obtain rfl | ⟨body, x, rfl⟩ := List.eq_nil_or_concat' taken
  · exact absurd (htotal ▸ hmin) (by decide)
  have hlength : body.length + 2 = (s.cfg.spec (route s)).totalSize := by simpa using htotal
  have hdue : LastByteDue s body x := ⟨hs, hr, hstate, hfill ▸ htotal, hlength, hfill ▸ htaken⟩
  obtain ⟨t, hexec, hrx, hgap, hmatch, hmismatch⟩ := hdue.exec_stepB_rearms b
  refine ⟨rearm (route s) t, x, b, crcBytes 0xFFFF#16 body, hexec, ?_, ?_, ?_, fun hcrc => ?_, fun hcrc => ?_,
    fun ha => ?_, fun hb => ?_, ?_⟩
  · simp [← hlength]
  · simp [← hlength]
  · rw [← hlength, List.append_assoc, Nat.add_sub_cancel, crc16_append _ le_rfl, crc16_all _ rfl]
  · rw [rearm_stats, hmatch hcrc, countValid_stats]
  · rw [rearm_stats, hmismatch hcrc, countInvalid_stats]
  · have hfull := hdue.fillCount_completedBy b
    rw [ha] at hrx hfull ⊢
    rw [rearm_a, hrx]
    exact ⟨rfl, hfull, rfl⟩
  · rw [hb] at hrx ⊢
    rw [rearm_b_rx, hrx]
    exact ⟨rfl, rfl, rfl⟩
  · rw [rearm_gapCounter, hgap]

end Sys2Proof.Proofs
end

section
/-! Facts of the frame builder family (43): how long the covered bytes and the whole frame are, and what TX does with each
answer of `build`. -/

namespace Sys2Proof.Machine

theorem encodeWord_tx (payload : List Byte) : encodeWord (.tx payload) = 0x400#12 := rfl

/-- The header and a payload of the required length are exactly what the frame's CRC covers (43 R190). -/
theorem length_header_payload {payload : List Byte} {spec : FrameSpec} (hT : 4 ≤ spec.totalSize)
    (h : payload.length = payloadLength spec) :
    (hi8 spec.header :: lo8 spec.header :: payload).length = crcCovered spec := by
  simp only [List.length_cons, h, payloadLength, crcCovered]
  omega

/-- `build` answers a frame only for a payload of the required length (43 R191). -/
theorem length_payload_of_build {payload f : List Byte} {spec : FrameSpec} (h : build payload spec = .ok f) :
    payload.length = payloadLength spec := by
  by_contra hne
  rw [build_error hne] at h
  cases h

/-- Every built frame is a whole one (43 R190). -/
theorem length_of_build {payload f : List Byte} {spec : FrameSpec} (hT : 4 ≤ spec.totalSize)
    (h : build payload spec = .ok f) : f.length = spec.totalSize := by
  have hlen := length_payload_of_build h
  rw [build_ok hT hlen] at h
  cases h
  rw [List.length_append, length_header_payload hT hlen, crcCovered]
  exact Nat.sub_add_cancel (by omega)

theorem exec_tx_of_build_ok {payload f : List Byte} {s : State} (hr : s.Running)
    (h : build payload s.cfg.specTx = .ok f) :
    exec (.tx payload) s = .next { s with txStream := s.txStream ++ f } :=
  exec_of_body_ok hr (txCommand_ok h)

theorem exec_tx_of_build_error {payload : List Byte} {e : Fault} {s : State} (hr : s.Running)
    (h : build payload s.cfg.specTx = .error e) : exec (.tx payload) s = .next { s with fault := some e } :=
  exec_of_body_error hr (by simp [commandBody, txCommand, h])

end Sys2Proof.Machine
end

section
/-! The obligations of the frame builder family. -/

open Sys2Proof Sys2Proof.Machine

namespace Sys2Proof.Proofs

/-- Settles O51: the CRC covers the header and the payload whole, and a wrong length is refused before it. -/
theorem buildWrapsThePayload : Obligations.BuildWrapsThePayload := by
  unfold Obligations.BuildWrapsThePayload
  intro payload spec hT
  refine ⟨fun hlen => ?_, build_error⟩
  exact ⟨_, crc16_all _ (length_header_payload hT hlen), build_ok hT hlen⟩

/-- Settles O52: TX appends what `build` answers under `SPEC_TX`, or records its fault. -/
theorem txAppendsOneFrame : Obligations.TxAppendsOneFrame := by
  unfold Obligations.TxAppendsOneFrame
  intro payload s hr hcfg
  have hT := (valid_specTx hcfg).1
  refine ⟨encodeWord_tx payload, fun hlen => ?_, fun hne => exec_tx_of_build_error hr (build_error hne)⟩
  have hbuild := build_ok hT hlen
  exact ⟨_, hbuild, length_of_build hT hbuild, exec_tx_of_build_ok hr hbuild⟩

end Sys2Proof.Proofs
end

section
/-! Facts of the exceptions family (60): what a stopped machine can still do, which commands leave a fault behind, and the
feed of a byte that fails the header match. -/

open Sys2Proof.Statements

namespace Sys2Proof.Machine

/-! ### A stopped machine (60 R216, R217) -/

theorem State.not_running_of_fault {s : State} (h : s.fault ≠ none) : ¬ s.Running := fun hr => h hr.noFault

theorem State.not_running_of_refused {s : State} (h : s.refused = true) : ¬ s.Running := fun hr =>
  Bool.false_ne_true (hr.notRefused.symm.trans h)

theorem exec_ne_next_of_fault {s : State} (h : s.fault ≠ none) (i : Instr) (t : State) : exec i s ≠ .next t :=
  fun hn => h (exec_next hn).1.noFault

/-- The step of a stopped machine that has a next state: nothing was pending, or a driver read was. -/
theorem step_next_of_stopped {s t : State} (hs : ¬ s.Running) (h : step s = .next t) :
    t = s ∨ ∃ o rest, t = driverRead o { s with input := rest } := by
  obtain hsame | ⟨c, rest, -, hc⟩ | ⟨o, rest, -, hread⟩ := step_next_cases h
  · exact .inl hsame
  · obtain ⟨hfault, hrefused⟩ := (exec_next hc).1
    exact absurd ⟨hfault, hrefused⟩ hs
  · exact .inr ⟨o, rest, hread⟩

/-- The first fault recorded stays, so a read of a faulted machine changes nothing (log 11). -/
theorem driverRead_of_fault {s : State} (h : s.fault ≠ none) (o : Observable) : driverRead o s = s := by
  obtain ⟨r, hr⟩ := Option.ne_none_iff_exists'.1 h
  unfold driverRead
  split
  · rfl
  · exact recordFault_sticky _ r s hr

@[simp] theorem driverRead_refused (o : Observable) (s : State) : (driverRead o s).refused = s.refused := by
  unfold driverRead; split <;> simp

theorem step_fault_of_fault {s t : State} (hf : s.fault ≠ none) (h : step s = .next t) : t.fault = s.fault := by
  obtain rfl | ⟨o, rest, rfl⟩ := step_next_of_stopped (State.not_running_of_fault hf) h
  · rfl
  · rw [driverRead_of_fault (s := { s with input := rest }) hf]

theorem step_refused_of_refused {s t : State} (hr : s.refused = true) (h : step s = .next t) : t.refused = true := by
  obtain rfl | ⟨o, rest, rfl⟩ := step_next_of_stopped (State.not_running_of_refused hr) h
  · exact hr
  · rw [driverRead_refused, hr]

/-- A command whose next state has a fault recorded raised it, and wrote nothing else. -/
theorem exec_fault_recorded {i : Instr} {s t : State} {r : Fault} (h : exec i s = .next t) (ht : t.fault = some r) :
    s.fault = none ∧ t = { s with fault := some r } := by
  have hnone : s.fault = none := (exec_next h).1.noFault
  refine ⟨hnone, ?_⟩
  cases exec_writes h with
  | fault => cases ht; rfl
  | step | stepB | rxreset | tx | crc | reset | reserved => exact absurd (hnone.symm.trans ht) nofun

/-! ### A header mismatch (60 R212) -/

theorem headerMismatch_cases {b : Byte} {s : State} (h : headerMismatch b s = true) :
    ((s.rx.get (route s)).state = .idle ∧ b ≠ hi8 (s.cfg.spec (route s)).header)
    ∨ ((s.rx.get (route s)).state = .starting ∧ b ≠ lo8 (s.cfg.spec (route s)).header) := by
  cases hs : (s.rx.get (route s)).state with
  | idle => exact .inl ⟨rfl, by simpa [headerMismatch, hs] using h⟩
  | starting => exact .inr ⟨rfl, by simpa [headerMismatch, hs] using h⟩
  | receiving | completed => simp [headerMismatch, hs] at h

/-- The feed of a mismatching byte is `reset()`, which changes nothing in `Idle` (41 R122, R123). -/
theorem feedReceiver_of_headerMismatch {b : Byte} {s : State} (hi : s.Inv) (h : headerMismatch b s = true) :
    feedReceiver (s.cfg.spec (route s)) b (s.rx.get (route s))
      = .ok (false, resetReceiver (s.rx.get (route s))) := by
  obtain ⟨hidle, hb⟩ | ⟨hstarting, hb⟩ := headerMismatch_cases h
  · rw [resetReceiver_of_idle (hi.rxOk (route s)).fill hidle, feedReceiver_idle_other hidle hb]
  · exact feedReceiver_starting_other hstarting hb

theorem exec_stepB_of_headerMismatch {b : Byte} {s : State} (hi : s.Inv) (hr : s.Running)
    (h : headerMismatch b s = true) :
    exec (.stepB b) s = .next (afterFeed s (resetReceiver (s.rx.get (route s)))) :=
  exec_of_body_ok hr (stepByteCommand_of_feed_false (feedReceiver_of_headerMismatch hi h))

/-- A feed that keeps the buffer of its receiver keeps every byte of every store. -/
theorem sameStores_afterFeed {s : State} {r : Receiver} (h : r.buffer = (s.rx.get (route s)).buffer) :
    SameStores s (afterFeed s r) := by
  intro ch k
  refine ⟨?_, rfl⟩
  by_cases hch : ch = route s
  · rw [hch, afterFeed_rx, PerChannel.get_set_same, h]
  · rw [afterFeed_rx, PerChannel.get_set_other _ hch]

end Sys2Proof.Machine
end

section
/-! The obligations of the exceptions family. -/

open Sys2Proof Sys2Proof.Machine

namespace Sys2Proof.Proofs

/-- Settles O12: only a raised fault writes `fault`, and a stopped machine answers driver reads only. -/
theorem faultsAreRecordedWholeAndSticky : Obligations.FaultsAreRecordedWholeAndSticky := by
  unfold Obligations.FaultsAreRecordedWholeAndSticky
  refine ⟨fun _ _ _ _ h ht => exec_fault_recorded h ht, fun i _ t hf => exec_ne_next_of_fault hf i t,
    fun _ _ hf h => ?_⟩
  rwa [step_fault_of_fault hf h]

/-- Settles O13: a reserved word writes `refused` only, a refused power-up is a stopped machine, and a stopped machine
answers driver reads only. -/
theorem refusalsAreRecordedAndSticky : Obligations.RefusalsAreRecordedAndSticky := by
  unfold Obligations.RefusalsAreRecordedAndSticky
  exact ⟨fun w _ hr => exec_reserved hr w, fun _ hv => powerUp_refused_of_invalid hv,
    fun _ i t hv => exec_ne_next_of_refused (powerUp_refused_of_invalid hv) i t,
    fun i _ t hr => exec_ne_next_of_refused hr i t, fun _ _ hr h => step_refused_of_refused hr h⟩

/-- Settles O38: the next state is a tick with `reset()` of the routed receiver, which keeps the buffer's bytes. -/
theorem headerMismatchLeavesNoTrace : Obligations.HeaderMismatchLeavesNoTrace := by
  unfold Obligations.HeaderMismatchLeavesNoTrace
  intro b s hi hr hmismatch
  exact ⟨_, exec_stepB_of_headerMismatch hi hr hmismatch, rfl, rfl, rfl, rfl, rfl, hr.noFault, hr.notRefused,
    by simp, by simp, sameStores_afterFeed rfl⟩

end Sys2Proof.Proofs
end

section
/-! Facts of the reset family (70): RESET as one equation of the whole state. -/

namespace Sys2Proof.Machine

/-- RESET cannot fault (70 R240). -/
theorem exec_reset {s : State} (hr : s.Running) : exec .reset s = .next (resetCommand s) := exec_of_body_ok hr rfl

/-- The two calls of `reset()` write `rx` only, one receiver each (41 R126). -/
theorem resetChannel_b_resetChannel_a (s : State) :
    resetChannel .b (resetChannel .a s)
      = { s with rx := { a := resetReceiver s.rx.a, b := resetReceiver s.rx.b } } := rfl

end Sys2Proof.Machine
end

section
/-! The obligation of the reset family. -/

open Sys2Proof Sys2Proof.Machine

namespace Sys2Proof.Proofs

/-- Settles O16: RESET answers `resetCommand`, whose fields are those of `reset()` on each receiver and the zeros. -/
theorem resetReinitialisesTheLink : Obligations.ResetReinitialisesTheLink := by
  unfold Obligations.ResetReinitialisesTheLink
  refine ⟨by decide, fun s hr => ?_⟩
  rw [exec_reset hr, resetCommand, resetChannel_b_resetChannel_a]
  simp only [resetReceiver, Stats.zero]

end Sys2Proof.Proofs
end

section
/-! Facts of the encoding, for whole instructions (30 R76 to R79): the decoder inverts the encoder both ways. And a
FEEDFRAME line by its tokens (30 R81). -/

namespace Sys2Proof

/-- The decoder's last branch gives back exactly the words that 30 R78 reserves, whatever the ports hold. -/
theorem decode_of_reservedWord {w : CommandWord} (h : reservedWord w = true) (p : SidePorts) :
    decode { word := w, ports := p } = .reserved w :=
  decode_eq_reserved_iff.2 ⟨(reservedWord_iff w).1 h, rfl⟩

/-- Decoding inverts encoding, an instruction's side operands included. -/
theorem decode_encode {i : Instr} (h : i.wf = true) : decode (encode i) = i := by
  cases i with
  | reserved w => exact decode_of_reservedWord h emptyPorts
  | rxreset c => cases c <;> rfl
  | step | stepB | tx | crc | reset => simp [encode, encodeWord, encodePorts, decode]

/-- Every RXRESET byte with `d[7:1] = 0` is the byte of the channel that `d[0]` names (30 R75). -/
theorem channelByte_channelOfBit (d : Byte) (h : d.extractLsb' 1 7 = 0#7) :
    channelByte (channelOfBit (d.extractLsb' 0 1)) = d := by
  revert d
  decide

/-- Encoding keeps every bit of the word that was decoded: each branch of the decoder fixes the fields it drops. -/
theorem encodeWord_decode (c : Command) : encodeWord (decode c) = c.word := by
  conv_rhs => rw [← commandWord_fields c.word]
  unfold decode
  dsimp only
  split_ifs with hstep hstepB hrxreset htx hcrc hreset
  · obtain ⟨hop, hv, hd⟩ := hstep
    rw [hop, hv, hd, encodeWord]
  · obtain ⟨hop, hv⟩ := hstepB
    rw [hop, hv, encodeWord]
  · obtain ⟨hop, hv, hd⟩ := hrxreset
    rw [hop, hv, encodeWord, channelByte_channelOfBit _ hd]
  · obtain ⟨hop, hv, hd⟩ := htx
    rw [hop, hv, hd, encodeWord]
  · obtain ⟨hop, hv, hd⟩ := hcrc
    rw [hop, hv, hd, encodeWord]
  · obtain ⟨hop, hv, hd⟩ := hreset
    rw [hop, hv, hd, encodeWord]
  · exact (commandWord_fields c.word).symm

end Sys2Proof

namespace Sys2Proof.Machine

/-- A FEEDFRAME line, from its tokens on, feeds the frame that `build` answers (30 R81). -/
theorem lineOf_feedframe {cfg : Config} {x : List Char} {shape : FrameShape} {ts : List Token} {payload f : List Byte}
    (hshape : shapeOf x = some shape) (hitems : byteItems ts = some (payload, []))
    (hbuild : build payload (shapeSpec cfg shape) = .ok f) :
    lineOf cfg (.word ['F', 'E', 'E', 'D', 'F', 'R', 'A', 'M', 'E'] :: .word x :: .comma :: .lbrack :: ts)
      = some (feedAll f) := by
  simp [lineOf, hshape, hitems, feedFrame_of_build hbuild]

end Sys2Proof.Machine
end

section
/-! The obligations on the encoding of instructions and on the assembler's lines. -/

open Sys2Proof Sys2Proof.Machine

namespace Sys2Proof.Proofs

/-- Settles O2: the fields of an encoded word are those of its row, and a reserved word is in no row. -/
theorem decodeInvertsEncode : Obligations.DecodeInvertsEncode := by
  unfold Obligations.DecodeInvertsEncode
  exact fun _ h => decode_encode h

/-- Settles O3: a word is put together from its three fields, which each branch of the decoder fixes. -/
theorem encodeInvertsDecodeOnWords : Obligations.EncodeInvertsDecodeOnWords := by
  unfold Obligations.EncodeInvertsDecodeOnWords
  exact encodeWord_decode

/-- Settles O1: the words are literals, so the decoder's comparisons evaluate; the ports stay variables. -/
theorem wordsOfTheCommandMapDecode : Obligations.WordsOfTheCommandMapDecode := by
  unfold Obligations.WordsOfTheCommandMapDecode
  simp [decode, opField, vField, dField, channelOfBit]

/-- Settles O6: a line of characters evaluates; of a FEEDFRAME the configuration, a variable, enters through `build`. -/
theorem assemblerLinesStandForCommands : Obligations.AssemblerLinesStandForCommands := by
  unfold Obligations.AssemblerLinesStandForCommands
  intro cfg
  refine ⟨rfl, rfl, rfl, rfl, rfl, rfl, rfl, rfl, rfl, fun f h => ?_, fun f h => ?_, fun f h => ?_⟩
  · exact lineOf_feedframe (shape := .a) rfl rfl h
  · exact lineOf_feedframe (shape := .b) rfl rfl h
  · exact lineOf_feedframe (shape := .tx) rfl rfl h

end Sys2Proof.Proofs
end

section
/-! The invariant (10 section 4, 20 section 6): what a STEP.B leaves of each part of the state, said once; and that
every command, every driver read and so every step keeps the invariant. -/

namespace Sys2Proof.Machine

/-! ### STEP.B by the parts of the state it writes (42 R153 to R159) -/

/-- The receivers after a STEP.B whose feed left `r`: the routed one is replaced, and a completion of B then resets
both. -/
def receiversAfter (s : State) (done : Bool) (r : Receiver) : PerChannel Receiver :=
  if done = true ∧ route s = .b then { a := resetReceiver s.rx.a, b := resetReceiver r } else s.rx.set (route s) r

theorem receiversAfter_false (s : State) (r : Receiver) : receiversAfter s false r = s.rx.set (route s) r := rfl

theorem receiversAfter_of_route_a {s : State} (h : route s = .a) (done : Bool) (r : Receiver) :
    receiversAfter s done r = { s.rx with a := r } := by
  simp [receiversAfter, h, PerChannel.set]

theorem receiversAfter_of_route_b {s : State} (h : route s = .b) (r : Receiver) :
    receiversAfter s true r = { a := resetReceiver s.rx.a, b := resetReceiver r } := if_pos ⟨rfl, h⟩

theorem rearm_rx_afterFeed {s t : State} {r : Receiver} (h : t.rx = s.rx.set (route s) r) :
    (rearm (route s) t).rx = receiversAfter s true r := by
  cases hroute : route s with
  | a => rw [rearm_a, h, hroute, receiversAfter_of_route_a hroute]; rfl
  | b => rw [rearm_b_rx, h, hroute, receiversAfter_of_route_b hroute]; rfl

/-- What a STEP.B writes besides the receivers, the tick and the gap: nothing, one invalid count, or, with the frame's
CRC matching, the payload copy, the timestamp and one valid count. -/
inductive Delivers (s : State) (r : Receiver) : Bool → State → Prop
  | nothing {t : State} (stats : t.stats = s.stats) (lastTs : t.lastTs = s.lastTs) (out : t.out = s.out) :
      Delivers s r false t
  | invalid {t : State} (mismatch : validate (s.cfg.spec (route s)) r = .ok false)
      (stats : t.stats = (countInvalid (route s) s).stats) (lastTs : t.lastTs = s.lastTs) (out : t.out = s.out) :
      Delivers s r true t
  | valid {t : State} (m : Memory) (matched : validate (s.cfg.spec (route s)) r = .ok true)
      (copied : copyPayload (s.cfg.spec (route s)) r 0 (payloadLength (s.cfg.spec (route s)))
        (s.out.get (route s)) = .ok m)
      (stats : t.stats = (countValid (route s) s).stats)
      (lastTs : t.lastTs = s.lastTs.set (route s) (s.tickCounter + 1#64)) (out : t.out = s.out.set (route s) m) :
      Delivers s r true t

/-- The inversion of a STEP.B body by the parts of the state. -/
theorem stepByteCommand_delivers {s t : State} {b : Byte} (h : stepByteCommand b s = .ok t) :
    ∃ done r, feedReceiver (s.cfg.spec (route s)) b (s.rx.get (route s)) = .ok (done, r)
      ∧ t.rx = receiversAfter s done r ∧ Delivers s r done t := by
  obtain ⟨_, r, hfeed, ⟨rfl, rfl⟩ | ⟨rfl, hv, rfl⟩ | ⟨rfl, hv, m, hm, rfl⟩⟩ := stepByteCommand_cases h
  · exact ⟨false, r, hfeed, rfl, .nothing rfl rfl rfl⟩
  · refine ⟨true, r, hfeed, rearm_rx_afterFeed rfl, ?_⟩
    rw [rearm_eq]
    exact .invalid hv rfl rfl rfl
  · refine ⟨true, r, hfeed, rearm_rx_afterFeed rfl, ?_⟩
    rw [rearm_eq]
    exact .valid m hv hm rfl rfl rfl

/-- A STEP.B writes nothing that the transmit side, CRC, the driver or a stop reads or writes. -/
theorem stepByteCommand_frame {s t : State} {b : Byte} (h : stepByteCommand b s = .ok t) :
    t.cfg = s.cfg ∧ t.tickCounter = s.tickCounter + 1#64 ∧ t.gapCounter = 0#32 ∧ t.txStream = s.txStream
      ∧ t.crcOut = s.crcOut ∧ t.fault = s.fault ∧ t.refused = s.refused ∧ t.input = s.input := by
  obtain ⟨_, r, -, ⟨-, rfl⟩ | ⟨-, -, rfl⟩ | ⟨-, -, m, -, rfl⟩⟩ := stepByteCommand_cases h
  · simp
  · rw [rearm_eq]; simp
  · rw [rearm_eq]; simp [afterValid]

/-! ### The receivers and the gap -/

/-- What the invariant says of the receivers and `gap_counter` (10 R23, R39, R40). -/
structure ReceiveOk (cfg : Config) (rx : PerChannel Receiver) (gap : Word32) : Prop where
  rxOk : ∀ ch, Receiver.Ok (cfg.spec ch) (rx.get ch)
  bNotCompleted : rx.b.state ≠ .completed
  gapWhileBusy : gap ≠ 0#32 → rx.a.state ≠ .idle
  gapBound : gap.toNat < cfg.timeoutTicks

theorem State.Inv.receiveOk {s : State} (h : s.Inv) : ReceiveOk s.cfg s.rx s.gapCounter :=
  ⟨h.rxOk, h.bNotCompleted, h.gapWhileBusy, h.gapBound⟩

namespace ReceiveOk

variable {cfg : Config} {rx : PerChannel Receiver} {gap : Word32}

/-- A busy A may have any gap below the threshold. -/
theorem countGap (h : ReceiveOk cfg rx gap) (hbusy : rx.a.state ≠ .idle) {gap' : Word32}
    (hgap : gap'.toNat < cfg.timeoutTicks) : ReceiveOk cfg rx gap' :=
  ⟨h.rxOk, h.bNotCompleted, fun _ => hbusy, hgap⟩

/-- `reset()` of A with the gap cleared (41 R127, 42 R152). -/
theorem resetA (h : ReceiveOk cfg rx gap) : ReceiveOk cfg (rx.set .a (resetReceiver rx.a)) 0#32 where
  rxOk := forall_channel.2 ⟨(h.rxOk .a).resetReceiver, h.rxOk .b⟩
  bNotCompleted := h.bNotCompleted
  gapWhileBusy := by simp
  gapBound := Nat.zero_lt_of_lt h.gapBound

/-- `reset()` of B (41 R127). -/
theorem resetB (h : ReceiveOk cfg rx gap) : ReceiveOk cfg (rx.set .b (resetReceiver rx.b)) gap where
  rxOk := forall_channel.2 ⟨h.rxOk .a, (h.rxOk .b).resetReceiver⟩
  bNotCompleted := by simp
  gapWhileBusy := h.gapWhileBusy
  gapBound := h.gapBound

/-- Both receivers reset and the gap cleared (42 R159, 70 R240), B's receiver having been replaced by `r`. -/
theorem resetBoth (h : ReceiveOk cfg rx gap) {r : Receiver} (hr : Receiver.Ok cfg.specB r) :
    ReceiveOk cfg { a := resetReceiver rx.a, b := resetReceiver r } 0#32 where
  rxOk := forall_channel.2 ⟨(h.rxOk .a).resetReceiver, hr.resetReceiver⟩
  bNotCompleted := by simp
  gapWhileBusy := by simp
  gapBound := Nat.zero_lt_of_lt h.gapBound

/-- A fed receiver in place and the gap cleared (42 R153). -/
theorem feed (h : ReceiveOk cfg rx gap) {ch : Channel} {r : Receiver} (hr : Receiver.Ok (cfg.spec ch) r)
    (hb : ch = .b → r.state ≠ .completed) : ReceiveOk cfg (rx.set ch r) 0#32 where
  rxOk := by
    cases ch
    · exact forall_channel.2 ⟨hr, h.rxOk .b⟩
    · exact forall_channel.2 ⟨h.rxOk .a, hr⟩
  bNotCompleted := by
    cases ch
    · exact h.bNotCompleted
    · exact hb rfl
  gapWhileBusy := by simp
  gapBound := Nat.zero_lt_of_lt h.gapBound

end ReceiveOk

theorem receiveOk_stepCommand {s : State} (h : s.Inv) :
    ReceiveOk s.cfg (stepCommand s).rx (stepCommand s).gapCounter := by
  obtain ⟨-, he⟩ | ⟨hbusy, hgap, he⟩ | ⟨-, -, he⟩ := stepCommand_cases s <;> rw [he]
  · exact h.receiveOk
  · exact h.receiveOk.countGap hbusy hgap
  · exact h.receiveOk.resetA

/-- A feed that completes nothing leaves B short of `Completed`; one that completes B is re-armed. -/
theorem receiveOk_receiversAfter {s : State} (h : s.Inv) {b : Byte} {done : Bool} {r : Receiver}
    (hfeed : feedReceiver (s.cfg.spec (route s)) b (s.rx.get (route s)) = .ok (done, r)) :
    ReceiveOk s.cfg (receiversAfter s done r) 0#32 := by
  obtain ⟨_, _, hfed, hok, -, -, hmore⟩ := feedReceiver_ok (valid_spec h.config (route s)) (h.rxOk (route s)) b
  cases hfeed.symm.trans hfed
  unfold receiversAfter
  split_ifs with hdone
  · obtain ⟨-, hb⟩ := hdone
    rw [hb] at hok
    exact h.receiveOk.resetBoth hok
  · refine h.receiveOk.feed hok fun hb => hmore (by simpa [hb] using hdone) ?_
    rw [hb]
    exact h.bNotCompleted

theorem exec_receiveOk {i : Instr} {s t : State} (hs : s.Inv) (h : exec i s = .next t) :
    ReceiveOk s.cfg t.rx t.gapCounter := by
  obtain ⟨-, hbody | ⟨e, -, rfl⟩⟩ := exec_next h
  · cases i with
    | step => cases hbody; exact receiveOk_stepCommand hs
    | stepB b =>
      obtain ⟨done, r, hfeed, hrx, -⟩ := stepByteCommand_delivers hbody
      obtain ⟨-, -, hgap, -⟩ := stepByteCommand_frame hbody
      rw [hrx, hgap]
      exact receiveOk_receiversAfter hs hfeed
    | rxreset c =>
      cases hbody
      cases c
      · exact hs.receiveOk.resetA
      · exact hs.receiveOk.resetB
    | reset => cases hbody; exact hs.receiveOk.resetBoth hs.rxB
    | tx p => obtain ⟨f, -, rfl⟩ := txCommand_cases hbody; exact hs.receiveOk
    | crc data len => obtain ⟨-, rfl⟩ := checksumCommand_cases hbody; exact hs.receiveOk
    | reserved w => cases hbody; exact hs.receiveOk
  · exact hs.receiveOk

/-! ### The output buffers (20 R63) -/

/-- A copy of a whole written buffer: the payload bytes of the buffer, and nothing beyond them (42 R157). -/
theorem copyPayload_reads {spec : FrameSpec} {r : Receiver} {m m' : Memory} (hm : OutOk spec m)
    (hwritten : ∀ i, i < spec.totalSize → ∃ v, Memory.read r.buffer i = some v)
    (hcopy : copyPayload spec r 0 (payloadLength spec) m = .ok m') :
    OutOk spec m'
      ∧ ∀ k, Memory.read m' k = if k < payloadLength spec then Memory.read r.buffer (k + 2) else none := by
  have hinside : ∀ {k}, k < payloadLength spec → k + 2 < spec.totalSize := by
    intro k hk
    unfold payloadLength at hk
    omega
  obtain ⟨f, hlen, hf⟩ := frame_of_written (m := r.buffer) (n := spec.totalSize) hwritten
  have hpayload : ((f.drop 2).take (payloadLength spec)).length = payloadLength spec := by
    simp only [List.length_take, List.length_drop, hlen, payloadLength]
    omega
  have hread : ∀ k, k < payloadLength spec →
      Memory.read r.buffer (k + 2) = ((f.drop 2).take (payloadLength spec))[k]? := by
    intro k hk
    rw [hf _ (hinside hk), List.getElem?_take_of_lt hk, List.getElem?_drop, Nat.add_comm]
  obtain ⟨m'', hcopy', hreads, hwf, hstore⟩ := copyPayload_frame hpayload hm.inStore (by rwa [hpayload])
  cases hcopy.symm.trans hcopy'
  have hreads' : ∀ k, Memory.read m' k = if k < payloadLength spec then Memory.read r.buffer (k + 2) else none := by
    intro k
    rw [hreads k]
    split_ifs with hk
    · exact (hread k hk).symm
    · exact List.getElem?_eq_none (hpayload.trans_le (Nat.not_lt.1 hk))
  refine ⟨⟨hwf hm.wf, hstore, .inr fun k hk => ?_⟩, hreads'⟩
  rw [hreads' k, if_pos hk]
  exact hwritten _ (hinside hk)

/-- A completed feed leaves every byte of the buffer written. -/
theorem written_of_feed_true {spec : FrameSpec} {r r' : Receiver} {b : Byte}
    (hT : 4 ≤ spec.totalSize ∧ spec.totalSize ≤ 65535) (hr : Receiver.Ok spec r)
    (h : feedReceiver spec b r = .ok (true, r')) :
    ∀ i, i < spec.totalSize → ∃ v, Memory.read r'.buffer i = some v := by
  obtain ⟨_, _, hfed, hok, -, hdone, -⟩ := feedReceiver_ok hT hr b
  cases h.symm.trans hfed
  have hstate : r'.state = .completed := by rw [hdone rfl]
  have hfull : r'.fillCount.toNat = spec.totalSize := by simpa only [FillMatchesState, hstate] using hok.fill
  exact hfull ▸ hok.written

/-- Only STEP.B writes an output buffer. -/
theorem exec_out_of_other {i : Instr} {s t : State} (hbyte : ∀ b, i ≠ .stepB b) (h : exec i s = .next t) :
    t.out = s.out := by
  cases exec_writes h with
  | stepB b => exact absurd rfl (hbyte b)
  | step | rxreset | tx | crc | reset | reserved | fault => rfl

/-- The output buffers after a command: as they were, or the routed one a whole payload, copied from the receiver that
the feed of the byte left. -/
theorem exec_out {i : Instr} {s t : State} (h : exec i s = .next t) :
    t.out = s.out
    ∨ ∃ b r m, i = .stepB b ∧ feedReceiver (s.cfg.spec (route s)) b (s.rx.get (route s)) = .ok (true, r)
        ∧ validate (s.cfg.spec (route s)) r = .ok true
        ∧ copyPayload (s.cfg.spec (route s)) r 0 (payloadLength (s.cfg.spec (route s)))
            (s.out.get (route s)) = .ok m
        ∧ t.rx = receiversAfter s true r ∧ t.out = s.out.set (route s) m := by
  by_cases hbyte : ∃ b, i = .stepB b
  · obtain ⟨b, rfl⟩ := hbyte
    obtain ⟨-, hbody | ⟨e, -, rfl⟩⟩ := exec_next h
    · obtain ⟨done, r, hfeed, hrx, hdelivers⟩ := stepByteCommand_delivers hbody
      cases hdelivers with
      | nothing _ _ hout => exact .inl hout
      | invalid _ _ _ hout => exact .inl hout
      | valid m hv hm _ _ hout => exact .inr ⟨b, r, m, rfl, hfeed, hv, hm, hrx, hout⟩
    · exact .inl rfl
  · exact .inl (exec_out_of_other (not_exists.1 hbyte) h)

theorem exec_outOk {i : Instr} {s t : State} (hs : s.Inv) (h : exec i s = .next t) (ch : Channel) :
    OutOk (s.cfg.spec ch) (t.out.get ch) := by
  obtain hout | ⟨b, r, m, -, hfeed, -, hcopy, -, hout⟩ := exec_out h <;> rw [hout]
  · exact hs.outOk ch
  · by_cases hch : ch = route s
    · subst hch
      have hwritten := written_of_feed_true (valid_spec hs.config _) (hs.rxOk _) hfeed
      rw [PerChannel.get_set_same]
      exact (copyPayload_reads (hs.outOk _) hwritten hcopy).1
    · rw [PerChannel.get_set_other _ hch]
      exact hs.outOk ch

/-! ### The counters and the transmit stream -/

theorem inc_le_statMax (cfg : Config) (c : Nat) : inc cfg c ≤ statMax cfg := by
  unfold inc
  split_ifs with h
  · exact h
  · cases cfg.statOverflow
    · exact Nat.zero_le _
    · exact le_rfl

theorem Stats.fit_zero (cfg : Config) : Stats.Fit cfg Stats.zero :=
  ⟨Nat.zero_le _, Nat.zero_le _, Nat.zero_le _⟩

theorem Stats.IncOrSame.fit {cfg : Config} {p : Prop} {old new : Stats} (h : Stats.IncOrSame cfg p old new)
    (hold : Stats.Fit cfg old) : Stats.Fit cfg new where
  valid := by obtain he | he := h.valid <;> rw [he]; exacts [hold.valid, inc_le_statMax ..]
  invalid := by obtain he | he := h.invalid <;> rw [he]; exacts [hold.invalid, inc_le_statMax ..]
  aborted := by obtain he | ⟨-, he⟩ := h.aborted <;> rw [he]; exacts [hold.aborted, inc_le_statMax ..]

theorem State.Inv.statsFit {s : State} (h : s.Inv) (ch : Channel) : Stats.Fit s.cfg (s.stats.get ch) := by
  cases ch
  · exact h.statsA
  · exact h.statsB

theorem exec_statsFit {i : Instr} {s t : State} (hs : s.Inv) (h : exec i s = .next t) (ch : Channel) :
    Stats.Fit s.cfg (t.stats.get ch) := by
  by_cases hreset : i = .reset
  · subst hreset
    rw [exec_reset_next h, resetCommand_stats_get]
    exact Stats.fit_zero _
  · exact (exec_stats hreset h ch).fit (hs.statsFit ch)

/-- No command counts an abort of B (10 R25). -/
theorem exec_abortedB {i : Instr} {s t : State} (hs : s.Inv) (h : exec i s = .next t) : t.stats.b.aborted = 0 := by
  by_cases hreset : i = .reset
  · subst hreset
    rw [exec_reset_next h]
    rfl
  · obtain hsame | ⟨⟨hch, -⟩, -⟩ := (exec_stats hreset h .b).aborted
    · exact hsame.trans hs.abortedB
    · cases hch

/-- TX appends whole frames (43 R192). -/
theorem exec_txWhole {i : Instr} {s t : State} (hs : s.Inv) (h : exec i s = .next t) :
    s.cfg.specTx.totalSize ∣ t.txStream.length := by
  by_cases htx : ∃ p, i = .tx p
  · obtain ⟨p, rfl⟩ := htx
    obtain ⟨-, hbody | ⟨e, -, rfl⟩⟩ := exec_next h
    · obtain ⟨f, hbuild, rfl⟩ := txCommand_cases hbody
      rw [List.length_append, length_of_build (valid_specTx hs.config).1 hbuild]
      exact Nat.dvd_add_self_right.2 hs.txWhole
    · exact hs.txWhole
  · obtain hsame | ⟨p, -, hp, -⟩ := exec_txStream h
    · rw [hsame]
      exact hs.txWhole
    · exact absurd ⟨p, hp⟩ htx

/-! ### Every step keeps the invariant -/

/-- Every command keeps the invariant. -/
theorem exec_inv {i : Instr} {s t : State} (hs : s.Inv) (h : exec i s = .next t) : t.Inv :=
  have hcfg := exec_cfg h
  have hreceive := exec_receiveOk hs h
  { config := hcfg ▸ hs.config
    rxA := hcfg ▸ hreceive.rxOk .a
    rxB := hcfg ▸ hreceive.rxOk .b
    bNotCompleted := hreceive.bNotCompleted
    gapWhileBusy := hreceive.gapWhileBusy
    gapBound := hcfg ▸ hreceive.gapBound
    outA := hcfg ▸ exec_outOk hs h .a
    outB := hcfg ▸ exec_outOk hs h .b
    statsA := hcfg ▸ exec_statsFit hs h .a
    statsB := hcfg ▸ exec_statsFit hs h .b
    abortedB := exec_abortedB hs h
    txWhole := hcfg ▸ exec_txWhole hs h }

/-- The invariant does not speak of what the driver does next. -/
theorem State.Inv.withInput {s : State} (h : s.Inv) (input : List DriverAction) :
    ({ s with input := input } : State).Inv :=
  { h with }

/-- A driver read writes `fault` at most, of which the invariant does not speak. -/
theorem driverRead_inv {s : State} (h : s.Inv) (o : Observable) : (driverRead o s).Inv := by
  unfold driverRead
  split
  · exact h
  · unfold recordFault
    split
    · exact { h with }
    · exact h

theorem step_inv {s t : State} (hs : s.Inv) (h : step s = .next t) : t.Inv := by
  obtain rfl | ⟨c, rest, -, hc⟩ | ⟨o, rest, -, rfl⟩ := step_next_cases h
  · exact hs
  · exact exec_inv (hs.withInput rest) hc
  · exact driverRead_inv (hs.withInput rest) o

/-! ### Power-up (10 R41) -/

theorem Receiver.ok_powered {spec : FrameSpec} : Receiver.Ok spec Receiver.powered where
  fill := rfl
  wf := Memory.wf_nil
  inStore := nofun
  written := nofun
  headerHigh := nofun
  headerLow := nofun

theorem outOk_nil (spec : FrameSpec) : OutOk spec [] := ⟨Memory.wf_nil, nofun, .inl rfl⟩

theorem powerUp_inv {cfg : Config} (h : cfg.valid = true) : (State.powerUp cfg).Inv where
  config := h
  rxA := Receiver.ok_powered
  rxB := Receiver.ok_powered
  bNotCompleted := nofun
  gapWhileBusy := fun hgap => absurd rfl hgap
  gapBound := (valid_timeout h).1
  outA := outOk_nil _
  outB := outOk_nil _
  statsA := Stats.fit_zero cfg
  statsB := Stats.fit_zero cfg
  abortedB := rfl
  txWhole := Nat.dvd_zero _

end Sys2Proof.Machine
end

section
/-! The obligations on the invariant. -/

open Sys2Proof Sys2Proof.Machine

namespace Sys2Proof.Proofs

/-- Settles O19: the next action is a command, a driver read or none, and each keeps the invariant. -/
theorem everyStepKeepsTheInvariant : Obligations.EveryStepKeepsTheInvariant := by
  unfold Obligations.EveryStepKeepsTheInvariant
  exact fun _ _ hs h => step_inv hs h

/-- Settles O18: `State.reset` is a power-up, and a power-up has every store empty and every counter 0. -/
theorem resetMeetsTheInvariant : Obligations.ResetMeetsTheInvariant := by
  unfold Obligations.ResetMeetsTheInvariant
  refine ⟨?_, fun _ h => powerUp_inv h⟩
  rw [reset_eq_powerUp]
  exact powerUp_inv default_valid

end Sys2Proof.Proofs
end

section
/-! Facts of a step, of the driver's reads and of runs (60 R228, R229): no command looks at what the driver does later,
what a driver read can do, what stops a sequence of commands, and a run as steps of the machine. -/

namespace Sys2Proof.Machine

/-! ### Running and stopped machines (60 R216, R217) -/

/-- A running machine answers a next state to every command: a fault is recorded in it (60 R216). -/
theorem exec_of_running {s : State} (h : s.Running) (i : Instr) : ∃ t, exec i s = .next t := by
  cases hbody : commandBody i s with
  | ok t => exact ⟨t, exec_of_body_ok h hbody⟩
  | error e => exact ⟨_, exec_of_body_error h hbody⟩

/-- A stopped machine's answer does not depend on the command. -/
theorem exec_eq_of_stopped {s : State} (h : ¬ s.Running) (i j : Instr) : exec i s = exec j s := by
  rw [exec_eq_runCommand, exec_eq_runCommand]
  cases hf : s.fault with
  | some r => rw [runCommand_faulted hf, runCommand_faulted hf]
  | none =>
    cases hr : s.refused with
    | true => rw [runCommand_refused hf hr, runCommand_refused hf hr]
    | false => exact absurd ⟨hf, hr⟩ h

theorem exec_of_fault {s : State} {r : Fault} (h : s.fault = some r) (i : Instr) : exec i s = .fault r := by
  rw [exec_eq_runCommand, runCommand_faulted h]

theorem exec_of_refused {s : State} (hf : s.fault = none) (h : s.refused = true) (i : Instr) :
    exec i s = .refused (refusalReason s) := by
  rw [exec_eq_runCommand, runCommand_refused hf h]

/-! ### Commands do not look at what they do not use -/

/-- A state with `tx_stream`, `crc_out` and the driver's later actions changed: the fields that no tick and no RXRESET
reads or writes. -/
def State.mapSide (tx : List Byte → List Byte) (crc : Option Word16 → Option Word16)
    (input : List DriverAction → List DriverAction) (s : State) : State :=
  { s with txStream := tx s.txStream, crcOut := crc s.crcOut, input := input s.input }

section
variable (tx : List Byte → List Byte) (crc : Option Word16 → Option Word16)
  (input : List DriverAction → List DriverAction)

theorem stepCommand_mapSide (s : State) :
    stepCommand (s.mapSide tx crc input) = (stepCommand s).mapSide tx crc input := by
  obtain ⟨hidle, he⟩ | ⟨hbusy, hgap, he⟩ | ⟨hbusy, hgap, he⟩ := stepCommand_cases s <;> rw [he]
  · exact stepCommand_idle hidle
  · exact stepCommand_gap hbusy hgap
  · exact stepCommand_timeout hbusy hgap

theorem rxresetCommand_mapSide (c : Channel) (s : State) :
    rxresetCommand c (s.mapSide tx crc input) = (rxresetCommand c s).mapSide tx crc input := by
  cases c <;> rfl

theorem rearm_mapSide (ch : Channel) (s : State) :
    rearm ch (s.mapSide tx crc input) = (rearm ch s).mapSide tx crc input := by
  cases ch <;> rfl

theorem complete_mapSide (ch : Channel) (s : State) :
    complete ch (s.mapSide tx crc input) = (complete ch s).map (State.mapSide tx crc input) := by
  have hvalidate : validate ((s.mapSide tx crc input).cfg.spec ch) ((s.mapSide tx crc input).rx.get ch)
      = validate (s.cfg.spec ch) (s.rx.get ch) := rfl
  have hcopy : copyPayload ((s.mapSide tx crc input).cfg.spec ch) ((s.mapSide tx crc input).rx.get ch) 0
        (payloadLength ((s.mapSide tx crc input).cfg.spec ch)) ((s.mapSide tx crc input).out.get ch)
      = copyPayload (s.cfg.spec ch) (s.rx.get ch) 0 (payloadLength (s.cfg.spec ch)) (s.out.get ch) := rfl
  simp only [complete, validPath, hvalidate, hcopy]
  cases validate (s.cfg.spec ch) (s.rx.get ch) with
  | error e => rfl
  | ok matched =>
    cases matched with
    | false => exact congrArg Except.ok (rearm_mapSide tx crc input ch (countInvalid ch s))
    | true =>
      cases copyPayload (s.cfg.spec ch) (s.rx.get ch) 0 (payloadLength (s.cfg.spec ch)) (s.out.get ch) with
      | error e => rfl
      | ok m => exact congrArg Except.ok (rearm_mapSide tx crc input ch (afterValid ch m s))

theorem stepByteCommand_mapSide (b : Byte) (s : State) :
    stepByteCommand b (s.mapSide tx crc input) = (stepByteCommand b s).map (State.mapSide tx crc input) := by
  cases hfeed : feedReceiver (s.cfg.spec (route s)) b (s.rx.get (route s)) with
  | error e =>
    have herror : ∀ t : State, t.cfg = s.cfg → t.rx = s.rx → stepByteCommand b t = .error e := by
      intro t hcfg hrx
      have hroute : route t = route s := by unfold route; rw [hrx]
      simp [stepByteCommand, feed, hroute, hcfg, hrx, hfeed]
    rw [herror s rfl rfl]
    exact herror _ rfl rfl
  | ok fed =>
    obtain ⟨done, r⟩ := fed
    cases done with
    | false =>
      rw [stepByteCommand_of_feed_false hfeed]
      exact stepByteCommand_of_feed_false (s := s.mapSide tx crc input) hfeed
    | true =>
      rw [stepByteCommand_of_feed_true hfeed, ← complete_mapSide]
      exact stepByteCommand_of_feed_true (s := s.mapSide tx crc input) hfeed

end

/-- A state with other driver actions pending. -/
def State.withInput (later : List DriverAction) (s : State) : State := s.mapSide id id fun _ => later

@[simp] theorem State.withInput_cfg (s : State) (later : List DriverAction) : (s.withInput later).cfg = s.cfg := rfl

theorem commandBody_withInput (i : Instr) (s : State) (later : List DriverAction) :
    commandBody i (s.withInput later)
      = (commandBody i s).map (State.withInput later) := by
  cases i with
  | step => exact congrArg Except.ok (stepCommand_mapSide id id (fun _ => later) s)
  | stepB b => exact stepByteCommand_mapSide id id (fun _ => later) b s
  | rxreset c => exact congrArg Except.ok (rxresetCommand_mapSide id id (fun _ => later) c s)
  | tx payload =>
    simp only [commandBody, txCommand, txAppendAll_eq, State.withInput_cfg]
    cases build payload s.cfg.specTx <;> rfl
  | crc data len =>
    simp only [commandBody, checksumCommand]
    cases crc16 data len <;> rfl
  | reset => rfl
  | reserved w => rfl

/-- An outcome with its next state, if it is one, changed. -/
def mapNext (f : State → State) : Host.Outcome State Fault Refusal → Host.Outcome State Fault Refusal
  | .next t => .next (f t)
  | .fault r => .fault r
  | .refused r => .refused r

theorem recordFault_withInput (e : Fault) (s : State) (later : List DriverAction) :
    recordFault e (s.withInput later) = (recordFault e s).withInput later := by
  cases hf : s.fault with
  | none => rw [recordFault_first e s hf, recordFault_first e (s.withInput later) hf]; rfl
  | some r => rw [recordFault_sticky e r s hf, recordFault_sticky e r (s.withInput later) hf]

theorem exec_withInput (i : Instr) (s : State) (later : List DriverAction) :
    exec i (s.withInput later) = mapNext (State.withInput later) (exec i s) := by
  cases hf : s.fault with
  | some r => rw [exec_of_fault hf, exec_of_fault (s := s.withInput later) hf]; rfl
  | none =>
    cases hr : s.refused with
    | true => rw [exec_of_refused hf hr, exec_of_refused (s := s.withInput later) hf hr]; rfl
    | false =>
      have hbody := commandBody_withInput i s later
      cases hs : commandBody i s with
      | ok t =>
        rw [exec_of_body_ok ⟨hf, hr⟩ hs]
        exact exec_of_body_ok (s := s.withInput later) ⟨hf, hr⟩ (by rw [hbody, hs]; rfl)
      | error e =>
        rw [exec_of_body_error ⟨hf, hr⟩ hs]
        exact exec_of_body_error (s := s.withInput later) ⟨hf, hr⟩ (by rw [hbody, hs]; rfl)

theorem exec_input {i : Instr} {s t : State} (h : exec i s = .next t) : t.input = s.input := by
  cases exec_writes h <;> rfl

/-! ### Driver reads (10 R36) -/

theorem driverRead_of_value {o : Observable} {s : State} {x : Reading} (h : observe o s = .ok x) :
    driverRead o s = s := by
  simp [driverRead, h]

theorem driverRead_of_fault_raised {o : Observable} {s : State} {e : Fault} (h : observe o s = .error e) :
    driverRead o s = recordFault e s := by
  simp [driverRead, h]

theorem observe_withInput (o : Observable) (s : State) (later : List DriverAction) :
    observe o (s.withInput later) = observe o s := by
  cases o <;> rfl

theorem driverRead_withInput (o : Observable) (s : State) (later : List DriverAction) :
    driverRead o (s.withInput later) = (driverRead o s).withInput later := by
  unfold driverRead
  rw [observe_withInput]
  cases observe o s with
  | ok x => rfl
  | error e => exact recordFault_withInput e s later

@[simp] theorem driverRead_input (o : Observable) (s : State) : (driverRead o s).input = s.input := by
  unfold driverRead; split <;> simp

theorem observe_bufferByte_written {s : State} {ch : Channel} {k : Nat} {v : Byte} (hk : k < (s.cfg.spec ch).totalSize)
    (h : Memory.read (s.rx.get ch).buffer k = some v) : observe (.bufferByte ch k) s = .ok (.byte v) := by
  simp [observe, hk, bufRead, h]

/-- A receive-buffer byte in its store that was never written (20 R52). -/
theorem observe_bufferByte_unwritten {s : State} {ch : Channel} {k : Nat} (hk : k < (s.cfg.spec ch).totalSize)
    (h : Memory.read (s.rx.get ch).buffer k = none) : observe (.bufferByte ch k) s = .error .unwrittenRead := by
  simp [observe, hk, bufRead, h]

/-- The reads that fault (10 R32, 20 R52). -/
theorem observe_error {o : Observable} {s : State} {e : Fault} (h : observe o s = .error e) :
    e = .unwrittenRead
      ∧ ((∃ ch k, o = .bufferByte ch k ∧ k < (s.cfg.spec ch).totalSize ∧ Memory.read (s.rx.get ch).buffer k = none)
          ∨ (o = .crcOut ∧ s.crcOut = none)) := by
  cases o with
  | bufferByte ch k =>
    by_cases hk : k < (s.cfg.spec ch).totalSize
    · cases hread : Memory.read (s.rx.get ch).buffer k with
      | some v => cases (observe_bufferByte_written hk hread).symm.trans h
      | none =>
        cases (observe_bufferByte_unwritten hk hread).symm.trans h
        exact ⟨rfl, .inl ⟨ch, k, rfl, hk, hread⟩⟩
    · simp [observe, hk] at h
  | outByte ch k =>
    simp only [observe] at h
    split_ifs at h
  | txByte k =>
    simp only [observe] at h
    split at h <;> cases h
  | crcOut =>
    cases hcrc : s.crcOut with
    | some v => simp [observe, hcrc] at h
    | none =>
      simp only [observe, hcrc] at h
      cases h
      exact ⟨rfl, .inr ⟨rfl, rfl⟩⟩
  | _ => cases h

/-- A read that leaves the machine running found it so and changed nothing. -/
theorem driverRead_eq_of_running {o : Observable} {s : State} (h : (driverRead o s).Running) : driverRead o s = s := by
  cases hobserve : observe o s with
  | ok x => exact driverRead_of_value hobserve
  | error e =>
    rw [driverRead_of_fault_raised hobserve] at h
    cases hfault : s.fault with
    | none => exact absurd h.noFault (by simp [recordFault_first e s hfault])
    | some r => exact absurd h.noFault (by simp [recordFault_sticky e r s hfault, hfault])

/-! ### One step -/

theorem step_of_nil {s : State} (h : s.input = []) : step s = .next s := by
  simp [step, nextAction, h]

theorem step_of_cons {s : State} {x : DriverAction} {rest : List DriverAction} (h : s.input = x :: rest) :
    step s = runAction x { s with input := rest } := by
  simp [step, nextAction, h]

theorem step_input {s t : State} (h : step s = .next t) : t.input = s.input.tail := by
  cases hin : s.input with
  | nil =>
    rw [step_of_nil hin] at h
    cases h
    exact hin
  | cons x rest =>
    rw [step_of_cons hin] at h
    cases x with
    | command c => exact exec_input h
    | read o => cases h; exact driverRead_input o _

/-! ### Commands one after another -/

@[simp] theorem execAll_nil (s : State) : execAll [] s = .next s := rfl

theorem execAll_cons_of_next {i : Instr} {is : List Instr} {s t : State} (h : exec i s = .next t) :
    execAll (i :: is) s = execAll is t := by
  simp [execAll, h]

/-- The inversion of a sequence: its first command has a next state, from which the rest runs. -/
theorem execAll_cons_next {i : Instr} {is : List Instr} {s t : State} (h : execAll (i :: is) s = .next t) :
    ∃ u, exec i s = .next u ∧ execAll is u = .next t := by
  cases hi : exec i s with
  | next u => exact ⟨u, rfl, execAll_cons_of_next hi ▸ h⟩
  | fault r => simp [execAll, hi] at h
  | refused r => simp [execAll, hi] at h

theorem execAll_append {is js : List Instr} {s t : State} (h : execAll is s = .next t) :
    execAll (is ++ js) s = execAll js t := by
  induction is generalizing s with
  | nil => cases h; rfl
  | cons i is ih =>
    obtain ⟨u, hi, hrest⟩ := execAll_cons_next h
    exact (execAll_cons_of_next hi).trans (ih hrest)

/-- A stopped machine answers its reason to the first command. -/
theorem execAll_cons_of_stopped {s : State} (h : ¬ s.Running) (i : Instr) (is : List Instr) :
    execAll (i :: is) s = exec i s := by
  cases hi : exec i s with
  | next t => exact absurd (exec_next hi).1 h
  | fault r => simp [execAll, hi]
  | refused r => simp [execAll, hi]

/-! ### Runs (60 R229) -/

theorem running_of_endState {xs : List DriverAction} {s : State} (h : (endState xs s).Running) : s.Running := by
  by_contra hs
  exact endState_stopped hs xs h

/-- A run that ends unstopped is its commands, one after another: its reads changed nothing. -/
theorem execAll_of_endState {actions : List DriverAction} {s : State} (h : (endState actions s).Running) :
    execAll (commandsOf actions) s = .next (endState actions s) := by
  induction actions generalizing s with
  | nil => rfl
  | cons x rest ih =>
    cases x with
    | command c =>
      obtain ⟨t, ht⟩ := exec_of_running (running_of_endState h) (decode c)
      rw [endState_cons, afterAction_next (x := .command c) ht] at h ⊢
      exact (execAll_cons_of_next ht).trans (ih h)
    | read o =>
      rw [endState_cons, afterAction_next (runAction_read o s)] at h ⊢
      have hread := driverRead_eq_of_running (running_of_endState h)
      rw [hread] at h ⊢
      exact ih h

theorem endState_of_execAll {commands : List Command} {s t : State}
    (h : execAll (commands.map decode) s = .next t) : endState (commands.map .command) s = t := by
  induction commands generalizing s with
  | nil => cases h; rfl
  | cons c rest ih =>
    obtain ⟨u, hc, hrest⟩ := execAll_cons_next h
    rw [List.map_cons, endState_cons, afterAction_next (x := .command c) hc]
    exact ih hrest

theorem commandsOf_map_command (commands : List Command) :
    commandsOf (commands.map .command) = commands.map decode := by
  induction commands with
  | nil => rfl
  | cons c rest ih => simp [commandsOf, ih]

theorem runResult_eq_some {cfg : Config} {actions : List DriverAction} {t : State} :
    runResult cfg actions = some t ↔ endState actions (State.powerUp cfg) = t ∧ t.Running := by
  unfold runResult
  rw [resultOf_eq_some]
  constructor
  · rintro ⟨rfl, hr⟩
    exact ⟨rfl, hr⟩
  · rintro ⟨rfl, hr⟩
    exact ⟨rfl, hr⟩

theorem runResult_append_eq_none {cfg : Config} {actions : List DriverAction} (later : List DriverAction)
    (h : runResult cfg actions = none) : runResult cfg (actions ++ later) = none := by
  by_contra hne
  obtain ⟨t, ht⟩ := Option.ne_none_iff_exists'.1 hne
  obtain ⟨rfl, hr⟩ := runResult_eq_some.1 ht
  rw [endState_append] at hr
  simp [runResult, resultOf_running (running_of_endState hr)] at h

/-! ### A run as steps of the machine (log 3) -/

theorem runAction_withInput (x : DriverAction) (s : State) (later : List DriverAction) :
    runAction x (s.withInput later) = mapNext (State.withInput later) (runAction x s) := by
  cases x with
  | command c => exact exec_withInput (decode c) s later
  | read o => exact congrArg Host.Outcome.next (driverRead_withInput o s later)

theorem runAction_input {x : DriverAction} {s t : State} (h : runAction x s = .next t) : t.input = s.input := by
  cases x with
  | command c => exact exec_input h
  | read o => cases h; exact driverRead_input o s

theorem coreRun_succ {s t : State} (n : Nat) (h : step s = .next t) :
    Host.Core.run core (n + 1) s = Host.Core.run core n t := by
  have hstep : core.step s = .next t := h
  simp only [Host.Core.run, hstep]

theorem coreRun_succ_ne_next {s : State} (n : Nat) (h : ∀ u, step s ≠ .next u) (t : State) :
    Host.Core.run core (n + 1) s ≠ .next t := by
  cases hs : step s with
  | next u => exact absurd hs (h u)
  | fault r =>
    have hstep : core.step s = .fault r := hs
    simp only [Host.Core.run, hstep]
    exact nofun
  | refused r =>
    have hstep : core.step s = .refused r := hs
    simp only [Host.Core.run, hstep]
    exact nofun

/-- An action without a next state is a command to a stopped machine. -/
theorem stopped_of_runAction {x : DriverAction} {s : State} (h : ∀ t, runAction x s ≠ .next t) : ¬ s.Running := by
  intro hr
  cases x with
  | command c =>
    obtain ⟨t, ht⟩ := exec_of_running hr (decode c)
    exact h t ht
  | read o => exact h _ rfl

/-- The steps of a machine that end running are those of the run: an action without a next state ends both. -/
theorem coreRun_iff_endState {actions : List DriverAction} {s t : State} (hin : s.input = []) :
    (Host.Core.run core actions.length (s.withInput actions) = .next t ∧ t.Running)
      ↔ endState actions s = t ∧ t.Running := by
  induction actions generalizing s with
  | nil =>
    have hs : s.withInput [] = s := by rw [← hin]; rfl
    simp only [List.length_nil, Host.Core.run, hs, endState_nil]
    refine and_congr_left fun _ => ⟨fun h => ?_, fun h => h ▸ rfl⟩
    cases h
    rfl
  | cons x rest ih =>
    have hstep : step (s.withInput (x :: rest)) = mapNext (State.withInput rest) (runAction x s) :=
      (step_of_cons rfl).trans (runAction_withInput x s rest)
    obtain ⟨u, hx, hu⟩ | ⟨-, hx⟩ := afterAction_cases s x
    · rw [hx] at hstep
      rw [List.length_cons, coreRun_succ _ hstep, ih ((runAction_input hx).trans hin), endState_cons, hu]
    · constructor
      · rintro ⟨hrun, -⟩
        refine absurd hrun (coreRun_succ_ne_next _ (fun u hu => ?_) t)
        rw [hstep] at hu
        cases hs : runAction x s with
        | next v => exact hx v hs
        | fault r => rw [hs] at hu; cases hu
        | refused r => rw [hs] at hu; cases hu
      · rintro ⟨rfl, hr⟩
        exact absurd (running_of_endState hr) (stopped_of_runAction hx)

end Sys2Proof.Machine
end

section
/-! The obligations on the step, the driver, the stop and RXRESET's commutation. -/

open Sys2Proof Sys2Proof.Machine

namespace Sys2Proof.Proofs

/-- Settles O7: the first pending action is a command, whichever way it came to stand there. -/
theorem stepRunsTheDecodedCommand : Obligations.StepRunsTheDecodedCommand := by
  unfold Obligations.StepRunsTheDecodedCommand
  exact ⟨fun _ _ _ h => step_of_cons h, fun _ h => step_of_nil h,
    fun s nbits w => step_of_cons (s := s.withFetchWord nbits w) rfl⟩

/-- Settles O8: no command body reads or writes `input`, and a stopped machine's answer does not depend on it. -/
theorem stepConsumesOneAction : Obligations.StepConsumesOneAction := by
  unfold Obligations.StepConsumesOneAction
  refine ⟨fun _ _ h => step_input h, fun i s later => ?_⟩
  have hlater := exec_withInput i s later
  exact ⟨fun t h => by rw [h] at hlater; exact hlater, fun r h => by rw [h] at hlater; exact hlater,
    fun r h => by rw [h] at hlater; exact hlater⟩

/-- Settles O9: `observe` by the observable; a read that gives a value is the identity. -/
theorem driverReadsHaveNoSideEffect : Obligations.DriverReadsHaveNoSideEffect := by
  unfold Obligations.DriverReadsHaveNoSideEffect
  refine ⟨fun _ _ _ h => driverRead_of_value h, fun _ _ _ h => step_of_cons h, fun s ch => ?_, fun s ch k v => ?_,
    fun s ch k => ?_⟩
  · refine ⟨rfl, rfl, rfl, rfl, rfl, rfl, rfl, rfl, rfl, fun v hv => ?_, rfl, rfl, rfl⟩
    simp only [observe, hv]
  · refine ⟨fun hk hv => ?_, fun hk hv => ?_, fun hk hv => ?_, fun hv => ?_⟩
    · exact observe_bufferByte_written hk hv
    · simp only [observe, hk, if_true, driverOutRead, hv]
    · simp only [observe, hk, if_true, driverOutRead, hv]
    · simp only [observe, hv]
  · refine ⟨fun hk => ?_, fun hk => ?_, fun hk => ?_⟩
    · simp only [observe, Nat.not_lt.2 hk, if_false]
    · simp only [observe, Nat.not_lt.2 hk, if_false]
    · simp only [observe, List.getElem?_eq_none hk]

/-- Settles O10: the two reads that fault, and what recording a fault does. -/
theorem faultingDriverReadsRecordTheirFault : Obligations.FaultingDriverReadsRecordTheirFault := by
  unfold Obligations.FaultingDriverReadsRecordTheirFault
  refine ⟨fun s ch k hk hread => ?_, fun s hcrc => ?_, fun s o e h => ?_⟩
  · exact observe_bufferByte_unwritten hk hread
  · simp only [observe, hcrc]
  · obtain ⟨hreason, hwhich⟩ := observe_error h
    refine ⟨hreason, hwhich, fun hf => ?_, fun hf => driverRead_of_fault hf o⟩
    rw [driverRead_of_fault_raised h, recordFault_first e s hf]

/-- Settles O14: a stopped machine's answers, and that a run ends unstopped exactly where its commands, and its steps,
lead to a running state. -/
theorem stoppedMachinesAnswerTheirReason : Obligations.StoppedMachinesAnswerTheirReason := by
  unfold Obligations.StoppedMachinesAnswerTheirReason
  refine ⟨fun i s r h => exec_of_fault h i, fun i s hf hr => ⟨fun hv => ?_, fun hv => ?_⟩, fun s t r hf h => ?_,
    fun cfg commands t => ⟨fun h => ?_, fun h => ?_⟩, fun cfg actions t h => ?_,
    fun cfg actions later h => runResult_append_eq_none later h, fun cfg actions t => ?_⟩
  · rw [exec_of_refused hf hr, refusalReason, hv]; rfl
  · rw [exec_of_refused hf hr, refusalReason, hv]; rfl
  · rw [step_fault_of_fault (by simp [hf]) h, hf]
  · obtain ⟨rfl, hr⟩ := runResult_eq_some.1 h
    exact ⟨commandsOf_map_command commands ▸ execAll_of_endState hr, hr.noFault, hr.notRefused⟩
  · obtain ⟨hexec, hf, hr⟩ := h
    exact runResult_eq_some.2 ⟨endState_of_execAll hexec, hf, hr⟩
  · obtain ⟨rfl, hr⟩ := runResult_eq_some.1 h
    exact execAll_of_endState hr
  · have hrunning : (t.fault = none ∧ t.refused = false) ↔ t.Running :=
      ⟨fun h => ⟨h.1, h.2⟩, fun h => ⟨h.noFault, h.notRefused⟩⟩
    rw [runResult_eq_some, hrunning]
    exact (coreRun_iff_endState rfl).symm

/-- Settles O17: `State.reset` is the power-up of the default configuration, which is in range. -/
theorem hostResetIsAPowerUp : Obligations.HostResetIsAPowerUp := by
  unfold Obligations.HostResetIsAPowerUp
  exact ⟨reset_eq_powerUp, default_valid, rfl, rfl, rfl, rfl⟩

/-- Settles O28: each RXRESET writes its own receiver; a stopped machine answers the first of either order alike. -/
theorem rxresetsCommute : Obligations.RxresetsCommute := by
  unfold Obligations.RxresetsCommute
  intro s
  by_cases hr : s.Running
  · have hpair : ∀ c d, execAll [.rxreset c, .rxreset d] s = .next (rxresetCommand d (rxresetCommand c s)) := by
      intro c d
      have hstill : (rxresetCommand c s).Running := by
        cases c
        · exact ⟨hr.noFault, hr.notRefused⟩
        · exact ⟨hr.noFault, hr.notRefused⟩
      rw [execAll_cons_of_next (exec_rxreset hr c), execAll_cons_of_next (exec_rxreset hstill d), execAll_nil]
    rw [hpair, hpair]
    rfl
  · rw [execAll_cons_of_stopped hr, execAll_cons_of_stopped hr, exec_eq_of_stopped hr (.rxreset .a) (.rxreset .b)]

end Sys2Proof.Proofs
end

section
/-! The algebra of the CRC register (40): a shift is linear and one-to-one, so the register is bit-serial, its residue
over a built frame is zero, and it tells apart any two sequences that differ in one byte. -/

open Sys2Proof.Statements

namespace Sys2Proof.Machine

/-! ### One shift and several (40 R100) -/

theorem crcShift_of_not_msb {r : Word16} (h : r.getLsbD 15 = false) : crcShift r = r <<< 1 := by
  rw [crcShift, h]
  rfl

theorem crcShift_of_msb {r : Word16} (h : r.getLsbD 15 = true) : crcShift r = r <<< 1 ^^^ 0x1021#16 := by
  rw [crcShift, h]
  rfl

/-- The polynomial is added once for each operand whose bit 15 is set, and twice is not at all. -/
theorem crcShift_xor (x y : Word16) : crcShift (x ^^^ y) = crcShift x ^^^ crcShift y := by
  have hxor : (x ^^^ y).getLsbD 15 = (x.getLsbD 15 ^^ y.getLsbD 15) := BitVec.getLsbD_xor
  cases hx : x.getLsbD 15 <;> cases hy : y.getLsbD 15 <;> rw [hx, hy] at hxor
  · rw [crcShift_of_not_msb hx, crcShift_of_not_msb hy, crcShift_of_not_msb hxor, BitVec.shiftLeft_xor_distrib]
  · rw [crcShift_of_not_msb hx, crcShift_of_msb hy, crcShift_of_msb hxor, BitVec.shiftLeft_xor_distrib,
      BitVec.xor_assoc]
  · rw [crcShift_of_msb hx, crcShift_of_not_msb hy, crcShift_of_msb hxor, BitVec.shiftLeft_xor_distrib]
    ac_rfl
  · rw [crcShift_of_msb hx, crcShift_of_msb hy, crcShift_of_not_msb hxor, BitVec.shiftLeft_xor_distrib,
      BitVec.xor_comm (y <<< 1), BitVec.xor_assoc, ← BitVec.xor_assoc 0x1021#16, BitVec.xor_self, BitVec.zero_xor]

/-- The polynomial is odd: a shift that adds it leaves bit 0 set, and one that does not loses no bit. -/
theorem crcShift_eq_zero {r : Word16} (h : crcShift r = 0#16) : r = 0#16 := by
  cases hmsb : r.getLsbD 15 with
  | true =>
    rw [crcShift_of_msb hmsb] at h
    have hodd := congrArg (BitVec.getLsbD · 0) h
    simp at hodd
  | false =>
    rw [crcShift_of_not_msb hmsb] at h
    ext i hi
    by_cases htop : i = 15
    · subst htop
      simpa [BitVec.getLsbD_eq_getElem hi] using hmsb
    · have hbit := congrArg (BitVec.getLsbD · (i + 1)) h
      have hlt : i + 1 < 16 := by omega
      simpa [hlt, BitVec.getLsbD_eq_getElem hi] using hbit

theorem crcShifts_xor (n : Nat) (x y : Word16) : crcShifts n (x ^^^ y) = crcShifts n x ^^^ crcShifts n y := by
  induction n generalizing x y with
  | zero => rfl
  | succ n ih => simp only [crcShifts, crcShift_xor, ih]

theorem crcShifts_eq_zero {n : Nat} {r : Word16} (h : crcShifts n r = 0#16) : r = 0#16 := by
  induction n generalizing r with
  | zero => exact h
  | succ n ih => exact crcShift_eq_zero (ih h)

theorem crcShifts_injective (n : Nat) : Function.Injective (crcShifts n) := by
  intro x y h
  have hzero : crcShifts n (x ^^^ y) = 0#16 := by rw [crcShifts_xor, h, BitVec.xor_self]
  exact BitVec.xor_eq_zero_iff.1 (crcShifts_eq_zero hzero)

/-! ### One byte wrong (40 section 3) -/

theorem crcByte_injective_register (d : Byte) : Function.Injective (crcByte · d) := fun _ _ h =>
  (BitVec.xor_left_inj _).1 (crcShifts_injective 8 h)

theorem crcByte_injective_data (r : Word16) : Function.Injective (crcByte r) := by
  intro d e h
  have hword : be16 d 0#8 = be16 e 0#8 := (BitVec.xor_right_inj _).1 (crcShifts_injective 8 h)
  simpa using congrArg hi8 hword

theorem crcBytes_injective_register (ds : List Byte) : Function.Injective (crcBytes · ds) := by
  induction ds with
  | nil => exact fun _ _ h => h
  | cons d ds ih => exact fun _ _ h => crcByte_injective_register d (ih h)

/-- The wrong byte changes the register, and no byte after it changes it back. -/
theorem crcBytes_set_ne {ds : List Byte} {k : Nat} {v : Byte} (hk : k < ds.length) (hv : ds[k]? ≠ some v)
    (r : Word16) : crcBytes r (ds.set k v) ≠ crcBytes r ds := by
  induction ds generalizing k r with
  | nil => cases hk
  | cons d ds ih =>
    cases k with
    | zero =>
      intro h
      have hbyte : v = d := crcByte_injective_data r (crcBytes_injective_register ds h)
      exact hv (by simp [hbyte])
    | succ k => exact ih (Nat.lt_of_succ_lt_succ hk) (by simpa using hv) (crcByte r d)

/-! ### The residue of a built frame (40 section 3) -/

/-- A built frame is what its CRC covers, then that CRC (43 R190). -/
theorem build_frame {payload f : List Byte} {spec : FrameSpec} (hT : 4 ≤ spec.totalSize)
    (h : build payload spec = .ok f) :
    ∃ body : List Byte, body = hi8 spec.header :: lo8 spec.header :: payload ∧ body.length + 2 = spec.totalSize
      ∧ f = body ++ [hi8 (crcBytes 0xFFFF#16 body), lo8 (crcBytes 0xFFFF#16 body)] := by
  have hlen := length_payload_of_build h
  refine ⟨_, rfl, ?_, ?_⟩
  · rw [length_header_payload hT hlen, crcCovered]
    omega
  · rw [build_ok hT hlen] at h
    cases h
    rfl

/-- Eight shifts of a register whose high byte is zero only move its low byte up. -/
theorem crcShifts_eight_low (d : Byte) : crcShifts 8 (be16 0#8 d) = be16 d 0#8 := by
  revert d
  decide +kernel

theorem be16_xor (x y x' y' : Byte) : be16 x y ^^^ be16 x' y' = be16 (x ^^^ x') (y ^^^ y') := BitVec.xor_append

/-- Feeding the register its own high byte cancels it and leaves the low byte on top. -/
theorem crcByte_hi8 (c : Word16) : crcByte c (hi8 c) = be16 (lo8 c) 0#8 := by
  have hcancel : c ^^^ be16 (hi8 c) 0#8 = be16 0#8 (lo8 c) :=
    calc
      c ^^^ be16 (hi8 c) 0#8 = be16 (hi8 c) (lo8 c) ^^^ be16 (hi8 c) 0#8 := by rw [be16_hi8_lo8]
      _ = be16 (hi8 c ^^^ hi8 c) (lo8 c ^^^ 0#8) := be16_xor ..
      _ = be16 0#8 (lo8 c) := by rw [BitVec.xor_self, BitVec.xor_zero]
  rw [crcByte, hcancel, crcShifts_eight_low]

/-- The residue: a register fed its own two bytes is zero. -/
theorem crcBytes_own_bytes (c : Word16) : crcBytes c [hi8 c, lo8 c] = 0#16 := by
  rw [crcBytes_cons, crcByte_hi8, crcBytes_cons, crcBytes_nil, crcByte, BitVec.xor_self]
  rfl

/-! ### Bit by bit (40 section 1) -/

/-- A data bit at the place where the register compares it. -/
def topBit (bit : Bool) : Word16 := if bit then 0x8000#16 else 0#16

theorem topBit_shiftLeft (bit : Bool) : topBit bit <<< 1 = 0#16 := by cases bit <;> rfl

theorem topBit_msb (bit : Bool) : (topBit bit).getLsbD 15 = bit := by cases bit <;> rfl

theorem serialBit_eq (r : Word16) (bit : Bool) : serialBit r bit = crcShift (r ^^^ topBit bit) := by
  have hmsb : (r ^^^ topBit bit).getLsbD 15 = (r.getLsbD 15 ^^ bit) := BitVec.getLsbD_xor.trans (by rw [topBit_msb])
  rw [serialBit, crcShift, hmsb, BitVec.shiftLeft_xor_distrib, topBit_shiftLeft, BitVec.xor_zero]
  cases r.getLsbD 15 <;> cases bit <;> rfl

theorem serialBit_xor (x y : Word16) (bit : Bool) : serialBit (x ^^^ y) bit = crcShift x ^^^ serialBit y bit := by
  rw [serialBit_eq, serialBit_eq, BitVec.xor_assoc, crcShift_xor]

theorem foldl_serialBit_xor (bits : List Bool) (x y : Word16) :
    bits.foldl serialBit (x ^^^ y) = crcShifts bits.length x ^^^ bits.foldl serialBit y := by
  induction bits generalizing x y with
  | nil => rfl
  | cons bit bits ih => rw [List.foldl_cons, serialBit_xor, ih, List.foldl_cons, List.length_cons, crcShifts]

theorem foldl_serialBit_zero (d : Byte) : (bitsOf d).foldl serialBit 0#16 = crcShifts 8 (be16 d 0#8) := by
  revert d
  decide +kernel

/-- The register is linear in what it held, so the bits of a byte may enter one by one, or all at once before the
shifts. -/
theorem crcByte_eq_foldl (r : Word16) (d : Byte) : crcByte r d = (bitsOf d).foldl serialBit r := by
  have hlinear := foldl_serialBit_xor (bitsOf d) r 0#16
  rw [BitVec.xor_zero, foldl_serialBit_zero] at hlinear
  exact (crcShifts_xor 8 r _).trans hlinear.symm

theorem crcBytes_eq_foldl (r : Word16) (data : List Byte) :
    crcBytes r data = ((data.map bitsOf).flatten).foldl serialBit r := by
  induction data generalizing r with
  | nil => rfl
  | cons d data ih => rw [crcBytes_cons, ih, crcByte_eq_foldl, List.map_cons, List.flatten_cons, List.foldl_append]

end Sys2Proof.Machine
end

section
/-! The obligations on the byte store and on the checksum's algebra. -/

open Sys2Proof Sys2Proof.Machine

namespace Sys2Proof.Proofs

/-- Settles O45: the laws of a byte store. -/
theorem storesReadBackWhatWasWritten : Obligations.StoresReadBackWhatWasWritten := by
  unfold Obligations.StoresReadBackWhatWasWritten
  exact fun m i v hm => ⟨Memory.read_write_same m i v, fun _ hk => Memory.read_write_other m hk v,
    Memory.wf_write hm i v, fun _ hm' hread => Memory.ext_of_read hm' hm hread⟩

/-- Settles O48: byte after byte, the byte-wise register is the bit-serial one. -/
theorem checksumIsBitSerial : Obligations.ChecksumIsBitSerial := by
  unfold Obligations.ChecksumIsBitSerial
  exact fun data => (crc16_all data rfl).trans (congrArg Except.ok (crcBytes_eq_foldl _ data))

/-- Settles O49: the frame ends with the two bytes of the register that its other bytes leave. -/
theorem builtFrameHasZeroResidue : Obligations.BuiltFrameHasZeroResidue := by
  unfold Obligations.BuiltFrameHasZeroResidue
  intro payload f spec hT hbuild
  have hlength := length_of_build hT hbuild
  obtain ⟨body, -, -, rfl⟩ := build_frame hT hbuild
  exact ⟨hlength, by rw [crc16_all _ hlength, crcBytes_append, crcBytes_own_bytes]⟩

/-- Settles O50: the trailing bytes are the register of the unchanged bytes, which one wrong byte changes. -/
theorem singleByteErrorIsDetected : Obligations.SingleByteErrorIsDetected := by
  unfold Obligations.SingleByteErrorIsDetected
  intro payload f spec k v x y hT hbuild hk hv hx hy
  obtain ⟨body, -, hlength, rfl⟩ := build_frame hT hbuild
  have hcovered : spec.totalSize - 2 = body.length := by omega
  have hlast : spec.totalSize - 1 = body.length + 1 := by omega
  rw [hcovered] at hk hx ⊢
  rw [hlast] at hy
  rw [List.getElem?_append_left hk] at hv
  rw [List.set_append_left _ _ hk] at hx hy ⊢
  have hsame : (body.set k v).length = body.length := List.length_set
  obtain rfl : hi8 (crcBytes 0xFFFF#16 body) = x := by simpa [hsame] using hx
  obtain rfl : lo8 (crcBytes 0xFFFF#16 body) = y := by simpa [hsame] using hy
  rw [be16_hi8_lo8, crc16_append _ hsame.ge, crc16_all _ hsame]
  exact fun h => crcBytes_set_ne hk hv _ (Except.ok.inj h)

end Sys2Proof.Proofs
end

section
/-! What each command leaves alone: the frames of STEP, of the control commands, of TX and CRC, and of STEP.B by the
channel that it is routed to; and what follows for the counters, the order of the channels and their isolation. -/

open Sys2Proof.Statements

namespace Sys2Proof.Machine

/-! ### STEP and the control commands -/

theorem exec_step_next {s t : State} (h : exec .step s = .next t) : t = stepCommand s := by
  cases (exec_step (exec_next h).1).symm.trans h
  rfl

theorem exec_rxreset_next {c : Channel} {s t : State} (h : exec (.rxreset c) s = .next t) : t = rxresetCommand c s := by
  cases (exec_rxreset (exec_next h).1 c).symm.trans h
  rfl

theorem exec_reserved_next {w : CommandWord} {s t : State} (h : exec (.reserved w) s = .next t) :
    t = { s with refused := true } := by
  cases (exec_reserved (exec_next h).1 w).symm.trans h
  rfl

/-- STEP writes the tick, the gap, A's receiver and A's aborted count (42 R151, R152). -/
theorem stepCommand_frame (s : State) :
    (stepCommand s).cfg = s.cfg ∧ (stepCommand s).tickCounter = s.tickCounter + 1#64
      ∧ (stepCommand s).rx.b = s.rx.b ∧ (stepCommand s).rx.a.buffer = s.rx.a.buffer
      ∧ (stepCommand s).stats.b = s.stats.b ∧ (stepCommand s).stats.a.valid = s.stats.a.valid
      ∧ (stepCommand s).stats.a.invalid = s.stats.a.invalid ∧ (stepCommand s).lastTs = s.lastTs
      ∧ (stepCommand s).out = s.out ∧ (stepCommand s).txStream = s.txStream ∧ (stepCommand s).crcOut = s.crcOut
      ∧ (stepCommand s).fault = s.fault ∧ (stepCommand s).refused = s.refused ∧ (stepCommand s).input = s.input := by
  obtain ⟨-, he⟩ | ⟨-, -, he⟩ | ⟨-, -, he⟩ := stepCommand_cases s <;> rw [he]
  · simp
  · simp
  · simp [timeoutAbort]

/-- A change of one channel's half, seen from any channel. -/
theorem PerChannel.get_set_map {α : Type} (p : PerChannel α) (c ch : Channel) (f : α → α) :
    (p.set c (f (p.get c))).get ch = p.get ch ∨ (p.set c (f (p.get c))).get ch = f (p.get ch) := by
  by_cases hch : ch = c
  · subst hch
    exact .inr (PerChannel.get_set_same ..)
  · exact .inl (PerChannel.get_set_other _ hch _)

/-- RXRESET resets one receiver, and clears the gap with A's (41 R127). -/
theorem rxresetCommand_eq (c : Channel) (s : State) :
    rxresetCommand c s
      = { s with rx := s.rx.set c (resetReceiver (s.rx.get c))
                 gapCounter := if c = .a then 0#32 else s.gapCounter } := by
  cases c <;> rfl

/-- `reset()` keeps the buffer's bytes (41 R126). -/
theorem set_resetReceiver_buffer (rx : PerChannel Receiver) (c ch : Channel) :
    ((rx.set c (resetReceiver (rx.get c))).get ch).buffer = (rx.get ch).buffer := by
  obtain h | h := PerChannel.get_set_map rx c ch resetReceiver <;> rw [h]
  rfl

/-- A command that leaves every receive buffer and `out` alone keeps every byte of every store. -/
theorem sameStores_of_buffers {s t : State} (hbuffer : ∀ ch, (t.rx.get ch).buffer = (s.rx.get ch).buffer)
    (hout : t.out = s.out) : SameStores s t :=
  fun ch k => ⟨by rw [hbuffer ch], by rw [hout]⟩

/-! ### STEP.B, from any state -/

/-- An append that answers stored `b` at `fill_count` (41 R128). -/
theorem appendByte_buffer {spec : FrameSpec} {b : Byte} {r r' : Receiver} (h : appendByte spec b r = .ok r') :
    r'.buffer = Memory.write r.buffer r.fillCount.toNat b := by
  by_cases hfits : r.fillCount.toNat < spec.totalSize
  · rw [appendByte_ok hfits] at h
    cases h
    rfl
  · simp [appendByte, bufWrite, hfits] at h

/-- Whatever the receiver holds, a feed stores one byte at most, at `fill_count`. -/
theorem feedReceiver_buffer {spec : FrameSpec} {b : Byte} {r r' : Receiver} {done : Bool}
    (h : feedReceiver spec b r = .ok (done, r')) :
    r'.buffer = r.buffer ∨ r'.buffer = Memory.write r.buffer r.fillCount.toNat b := by
  cases hs : r.state with
  | idle =>
    simp only [feedReceiver, hs, feedIdle] at h
    split at h
    · split at h
      · cases h
      · rename_i happend
        have hbuffer := appendByte_buffer happend
        cases h
        exact .inr hbuffer
    · cases h
      exact .inl rfl
  | starting =>
    simp only [feedReceiver, hs, feedStarting] at h
    split at h
    · split at h
      · cases h
      · rename_i happend
        have hbuffer := appendByte_buffer happend
        cases h
        exact .inr hbuffer
    · cases h
      exact .inl rfl
  | receiving =>
    simp only [feedReceiver, hs, feedReceiving] at h
    split at h
    · cases h
    · rename_i happend
      have hbuffer := appendByte_buffer happend
      split_ifs at h <;> cases h <;> exact .inr hbuffer
  | completed =>
    cases (feedReceiver_completed hs b).symm.trans h
    exact .inl rfl

/-- The copy writes payload bytes only (20 R53). -/
theorem copyPayload_read_beyond {spec : FrameSpec} {r : Receiver} {i n k : Nat} {m m' : Memory}
    (h : copyPayload spec r i n m = .ok m') (hk : payloadLength spec ≤ k) : Memory.read m' k = Memory.read m k := by
  induction n generalizing i m with
  | zero => cases h; rfl
  | succ n ih =>
    simp only [copyPayload] at h
    split at h
    · cases h
    · rename_i v _
      by_cases hi : i < payloadLength spec
      · rw [outWrite_ok hi] at h
        rw [ih h, Memory.read_write_other m (by omega)]
      · simp [outWrite, hi] at h

theorem receiversAfter_buffer (s : State) (done : Bool) (r : Receiver) (ch : Channel) :
    ((receiversAfter s done r).get ch).buffer = ((s.rx.set (route s) r).get ch).buffer := by
  unfold receiversAfter
  split_ifs with h
  · rw [h.2]
    cases ch <;> rfl
  · rfl

theorem receiversAfter_a (s : State) (done : Bool) (r : Receiver) :
    (receiversAfter s done r).a = s.rx.a ∨ route s = .a
      ∨ (route s = .b ∧ done = true ∧ (receiversAfter s done r).a = resetReceiver s.rx.a) := by
  cases hroute : route s with
  | a => exact .inr (.inl rfl)
  | b =>
    cases done with
    | false => rw [receiversAfter_false, hroute]; exact .inl rfl
    | true => rw [receiversAfter_of_route_b hroute]; exact .inr (.inr ⟨rfl, rfl, rfl⟩)

theorem receiversAfter_b (s : State) (done : Bool) (r : Receiver) :
    (receiversAfter s done r).b = s.rx.b ∨ route s = .b := by
  cases hroute : route s with
  | a => rw [receiversAfter_of_route_a hroute]; exact .inl rfl
  | b => exact .inr rfl

namespace Delivers

variable {s t : State} {r : Receiver} {done : Bool} {ch : Channel}

/-- The channel that is not routed to gets nothing. -/
theorem other_channel (h : Delivers s r done t) (hch : ch ≠ route s) :
    t.stats.get ch = s.stats.get ch ∧ t.lastTs.get ch = s.lastTs.get ch ∧ t.out.get ch = s.out.get ch := by
  cases h with
  | nothing hstats hts hout => rw [hstats, hts, hout]; exact ⟨rfl, rfl, rfl⟩
  | invalid _ hstats hts hout =>
    rw [hstats, hts, hout, countInvalid_stats, PerChannel.get_set_other _ hch]
    exact ⟨rfl, rfl, rfl⟩
  | valid m _ _ hstats hts hout =>
    rw [hstats, hts, hout, countValid_stats, PerChannel.get_set_other _ hch, PerChannel.get_set_other _ hch,
      PerChannel.get_set_other _ hch]
    exact ⟨rfl, rfl, rfl⟩

/-- A change of a timestamp or of an output buffer is a valid completion of that channel. -/
theorem valid_of_changed (h : Delivers s r done t)
    (hne : t.out.get ch ≠ s.out.get ch ∨ t.lastTs.get ch ≠ s.lastTs.get ch) :
    ch = route s ∧ (t.stats.get ch).valid = inc s.cfg (s.stats.get ch).valid
      ∧ t.lastTs.get ch = s.tickCounter + 1#64 := by
  have hch : ch = route s := by
    by_contra hch
    obtain ⟨-, hts, hout⟩ := h.other_channel hch
    exact hne.elim (absurd hout) (absurd hts)
  subst hch
  cases h with
  | nothing _ hts hout => simp [hts, hout] at hne
  | invalid _ _ hts hout => simp [hts, hout] at hne
  | valid m _ _ hstats hts _ => simp [hstats, hts]

theorem aborted (h : Delivers s r done t) (ch : Channel) : (t.stats.get ch).aborted = (s.stats.get ch).aborted := by
  by_cases hch : ch = route s
  · subst hch
    cases h with
    | nothing hstats _ _ => rw [hstats]
    | invalid _ hstats _ _ => rw [hstats, countInvalid_stats, PerChannel.get_set_same]
    | valid _ _ _ hstats _ _ => rw [hstats, countValid_stats, PerChannel.get_set_same]
  · rw [(h.other_channel hch).1]

/-- The output buffers keep what is no payload byte of the routed channel. -/
theorem read_out (h : Delivers s r done t) {k : Nat} (hk : ¬ (ch = route s ∧ k < payloadLength (s.cfg.spec ch))) :
    Memory.read (t.out.get ch) k = Memory.read (s.out.get ch) k := by
  by_cases hch : ch = route s
  · subst hch
    cases h with
    | nothing _ _ hout => rw [hout]
    | invalid _ _ _ hout => rw [hout]
    | valid m _ hcopy _ _ hout =>
      rw [hout, PerChannel.get_set_same]
      exact copyPayload_read_beyond hcopy (Nat.not_lt.1 fun hlt => hk ⟨rfl, hlt⟩)
  · rw [(h.other_channel hch).2.2]

end Delivers

/-- STEP.B leaves the stats, the timestamp and the output buffer of the channel that it is not routed to. -/
theorem exec_stepB_other_channel {b : Byte} {s t : State} {ch : Channel} (h : exec (.stepB b) s = .next t)
    (hch : ch ≠ route s) :
    t.stats.get ch = s.stats.get ch ∧ t.lastTs.get ch = s.lastTs.get ch ∧ t.out.get ch = s.out.get ch := by
  obtain ⟨-, hbody | ⟨e, -, rfl⟩⟩ := exec_next h
  · obtain ⟨done, r, -, -, hdelivers⟩ := stepByteCommand_delivers hbody
    exact hdelivers.other_channel hch
  · exact ⟨rfl, rfl, rfl⟩

theorem exec_stepB_rx_b {b : Byte} {s t : State} (h : exec (.stepB b) s = .next t) :
    t.rx.b = s.rx.b ∨ route s = .b := by
  obtain ⟨-, hbody | ⟨e, -, rfl⟩⟩ := exec_next h
  · obtain ⟨done, r, -, hrx, -⟩ := stepByteCommand_delivers hbody
    rw [hrx]
    exact receiversAfter_b s done r
  · exact .inl rfl

theorem exec_stepB_of_feed_false {s : State} {b : Byte} {r : Receiver} (hr : s.Running)
    (h : feedReceiver (s.cfg.spec (route s)) b (s.rx.get (route s)) = .ok (false, r)) :
    exec (.stepB b) s = .next (afterFeed s r) :=
  exec_of_body_ok hr (stepByteCommand_of_feed_false h)

theorem afterFeed_same (s : State) :
    afterFeed s (s.rx.get (route s)) = { s with tickCounter := s.tickCounter + 1#64, gapCounter := 0#32 } := by
  rw [afterFeed, PerChannel.set_get, tick]

/-! ### The counters (10 R26) -/

/-- A command other than RESET counts once at most in a channel's stats. -/
theorem exec_stats_cases {i : Instr} {s t : State} (hreset : i ≠ .reset) (h : exec i s = .next t) (ch : Channel) :
    t.stats.get ch = s.stats.get ch
    ∨ t.stats.get ch = { s.stats.get ch with valid := inc s.cfg (s.stats.get ch).valid }
    ∨ t.stats.get ch = { s.stats.get ch with invalid := inc s.cfg (s.stats.get ch).invalid }
    ∨ t.stats.get ch = { s.stats.get ch with aborted := inc s.cfg (s.stats.get ch).aborted } := by
  cases exec_writes h with
  | step rx gap counted =>
    obtain rfl | rfl := counted
    · exact .inl rfl
    · exact (PerChannel.get_set_map s.stats .a ch fun x => { x with aborted := inc s.cfg x.aborted }).imp id
        fun h => .inr (.inr h)
  | stepB b rx ts out counted =>
    obtain rfl | rfl | rfl := counted
    · exact .inl rfl
    · exact (PerChannel.get_set_map s.stats (route s) ch fun x => { x with invalid := inc s.cfg x.invalid }).imp id
        fun h => .inr (.inl h)
    · exact (PerChannel.get_set_map s.stats (route s) ch fun x => { x with valid := inc s.cfg x.valid }).imp id .inl
  | reset => exact absurd rfl hreset
  | rxreset | tx | crc | reserved | fault => exact .inl rfl

/-! ### The order of the channels (10 section 4) -/

/-- No tick wraps the gap: it stays below a threshold that fits in its 32 bits (10 R40). -/
theorem State.Inv.gapCounter_succ {s : State} (h : s.Inv) : (s.gapCounter + 1#32).toNat = s.gapCounter.toNat + 1 := by
  have hfits : s.gapCounter.toNat + 1 < 2 ^ 32 := by
    have hmax := (valid_timeout h.config).2
    have hgap := h.gapBound
    omega
  exact BitVec.toNat_add_of_lt hfits

/-- "B has begun a frame only while A is `Completed`" (10 section 4). -/
def ReceiversInOrder (rx : PerChannel Receiver) : Prop := rx.b.state ≠ .idle → rx.a.state = .completed

theorem receiversInOrder_stepCommand {s : State} (hs : s.Inv) (horder : ReceiversInOrder s.rx)
    (htimeout : ¬ (s.rx.a.state = .completed ∧ s.cfg.timeoutTicks ≤ s.gapCounter.toNat + 1)) :
    ReceiversInOrder (stepCommand s).rx := by
  obtain ⟨-, he⟩ | ⟨-, -, he⟩ | ⟨-, hgap, he⟩ := stepCommand_cases s <;> rw [he]
  · exact horder
  · exact horder
  · rw [hs.gapCounter_succ] at hgap
    exact fun hbusy => absurd ⟨horder hbusy, hgap⟩ htimeout

theorem receiversInOrder_receiversAfter {s : State} (horder : ReceiversInOrder s.rx) (done : Bool) (r : Receiver) :
    ReceiversInOrder (receiversAfter s done r) := by
  by_cases hA : s.rx.a.state = .completed
  · have hroute := route_of_completed hA
    cases done with
    | false => rw [receiversAfter_false, hroute]; exact fun _ => hA
    | true => rw [receiversAfter_of_route_b hroute]; exact fun hbusy => absurd rfl hbusy
  · rw [receiversAfter_of_route_a (route_of_not_completed hA)]
    exact fun hbusy => absurd (horder hbusy) hA

/-! ### TX and CRC beside the receive path (43 section 3) -/

/-- A TX or CRC that does not fault changes `tx_stream` and `crc_out` the same way from every running state of a
configuration. -/
theorem exec_side_command {i : Instr} {cfg : Config} (hcfg : cfg.valid = true)
    (h : (∃ p : List Byte, i = .tx p ∧ p.length = payloadLength cfg.specTx)
      ∨ ∃ (d : List Byte) (n : Nat), i = .crc d n ∧ n ≤ d.length) :
    ∃ tx crc, ∀ u : State, u.Running → u.cfg = cfg → exec i u = .next (u.mapSide tx crc id) := by
  obtain ⟨p, rfl, hlen⟩ | ⟨d, n, rfl, hle⟩ := h
  · obtain ⟨f, hbuild⟩ : ∃ f, build p cfg.specTx = .ok f := ⟨_, build_ok (valid_specTx hcfg).1 hlen⟩
    exact ⟨(· ++ f), id, fun u hr hu => exec_tx_of_build_ok hr (by rw [hu]; exact hbuild)⟩
  · exact ⟨id, fun _ => some _, fun u hr _ => exec_crc_of_ok hr (crc16_ok hle)⟩

/-- A tick or RXRESET from the invariant completes, leaves the machine running, and commutes with a change of what it
does not use. -/
theorem exec_receive_command {j : Instr} {s : State} (hs : s.Inv) (hr : s.Running)
    (h : j = .step ∨ (∃ b, j = .stepB b) ∨ ∃ c, j = .rxreset c) :
    ∃ u, exec j s = .next u ∧ u.Running
      ∧ ∀ tx crc, exec j (s.mapSide tx crc id) = .next (u.mapSide tx crc id) := by
  have hside : ∀ tx crc, (s.mapSide tx crc id).Running := fun _ _ => ⟨hr.noFault, hr.notRefused⟩
  obtain rfl | ⟨b, rfl⟩ | ⟨c, rfl⟩ := h
  · obtain ⟨-, -, -, -, -, -, -, -, -, -, -, hf, href, -⟩ := stepCommand_frame s
    refine ⟨_, exec_step hr, ⟨hf.trans hr.noFault, href.trans hr.notRefused⟩, fun tx crc => ?_⟩
    rw [exec_step (hside tx crc), stepCommand_mapSide]
  · obtain ⟨u, hu⟩ := stepByteCommand_of_inv hs b
    obtain ⟨-, -, -, -, -, hf, href, -⟩ := stepByteCommand_frame hu
    refine ⟨u, exec_of_body_ok hr hu, ⟨hf.trans hr.noFault, href.trans hr.notRefused⟩, fun tx crc => ?_⟩
    exact exec_of_body_ok (hside tx crc) ((stepByteCommand_mapSide tx crc id b s).trans (by rw [hu]; rfl))
  · refine ⟨_, exec_rxreset hr c, ?_, fun tx crc => ?_⟩
    · rw [rxresetCommand_eq]
      exact ⟨hr.noFault, hr.notRefused⟩
    · rw [exec_rxreset (hside tx crc), rxresetCommand_mapSide]

end Sys2Proof.Machine

namespace Sys2Proof.Statements.AgreeOnA

open Sys2Proof.Machine

/-! ### Isolation of channel A (41 R120, 42 R154): what each command body does to A's part depends on A's part -/

variable {s s' t : State}

theorem symm (h : AgreeOnA s t) : AgreeOnA t s :=
  ⟨h.cfg.symm, h.rxA.symm, h.gap.symm, h.tick.symm, h.statsA.symm, h.lastTsA.symm, h.outA.symm⟩

theorem trans {u : State} (h : AgreeOnA s t) (k : AgreeOnA t u) : AgreeOnA s u :=
  ⟨h.cfg.trans k.cfg, h.rxA.trans k.rxA, h.gap.trans k.gap, h.tick.trans k.tick, h.statsA.trans k.statsA,
    h.lastTsA.trans k.lastTsA, h.outA.trans k.outA⟩

theorem recorded_fault (s : State) (e : Fault) : AgreeOnA s { s with fault := some e } := ⟨rfl, rfl, rfl, rfl, rfl, rfl, rfl⟩

theorem stepCommand (h : AgreeOnA s s') : AgreeOnA (stepCommand s) (stepCommand s') := by
  have htick : s.tickCounter + 1#64 = s'.tickCounter + 1#64 := by rw [h.tick]
  obtain ⟨hidle, he⟩ | ⟨hbusy, hgap, he⟩ | ⟨hbusy, hgap, he⟩ := stepCommand_cases s <;> rw [he]
  · rw [stepCommand_idle (h.rxA ▸ hidle)]
    exact { h with tick := htick }
  · rw [stepCommand_gap (h.rxA ▸ hbusy) (h.gap ▸ h.cfg ▸ hgap)]
    exact { h with tick := htick, gap := congrArg (· + 1#32) h.gap }
  · rw [stepCommand_timeout (h.rxA ▸ hbusy) (h.gap ▸ h.cfg ▸ hgap)]
    exact { h with
      tick := htick
      gap := rfl
      rxA := congrArg resetReceiver h.rxA
      statsA := by simp [timeoutAbort, h.cfg, h.statsA] }

theorem rxresetCommand (h : AgreeOnA s s') (c : Channel) : AgreeOnA (rxresetCommand c s) (rxresetCommand c s') := by
  cases c
  · exact { h with rxA := congrArg resetReceiver h.rxA, gap := rfl }
  · exact { h with }

theorem resetCommand (h : AgreeOnA s s') : AgreeOnA (resetCommand s) (resetCommand s') :=
  { h with rxA := congrArg resetReceiver h.rxA, gap := rfl, tick := rfl, statsA := rfl, lastTsA := rfl }

theorem afterFeed (h : AgreeOnA s s') (hA : route s = .a) (hA' : route s' = .a) (r : Receiver) :
    AgreeOnA (afterFeed s r) (afterFeed s' r) :=
  { h with
    rxA := by simp [hA, hA']
    tick := by simp [h.tick]
    gap := rfl }

/-- While A is routed to, a STEP.B that answers a state answers one that agrees with it from every state that agrees. -/
theorem stepByteCommand (h : AgreeOnA s s') (hA : s.rx.a.state ≠ .completed) {b : Byte}
    (hbody : stepByteCommand b s = .ok t) : ∃ t', stepByteCommand b s' = .ok t' ∧ AgreeOnA t t' := by
  have hroute := route_of_not_completed hA
  have hroute' : route s' = .a := route_of_not_completed (h.rxA ▸ hA)
  have hspec : s'.cfg.spec .a = s.cfg.spec .a := by rw [h.cfg]
  have hrx : s'.rx.get .a = s.rx.get .a := h.rxA.symm
  have hout : s'.out.get .a = s.out.get .a := h.outA.symm
  obtain ⟨_, r, hfeed, hcases⟩ := stepByteCommand_cases hbody
  have hfeed' := hfeed
  rw [hroute, ← hspec, ← hrx, ← hroute'] at hfeed'
  have hfed := h.afterFeed hroute hroute' r
  obtain ⟨rfl, rfl⟩ | ⟨rfl, hv, rfl⟩ | ⟨rfl, hv, m, hm, rfl⟩ := hcases
  · exact ⟨_, stepByteCommand_of_feed_false hfeed', hfed⟩
  · rw [hroute, ← hspec] at hv
    refine ⟨_, (stepByteCommand_of_feed_true hfeed').trans (complete_of_invalid ?_), ?_⟩
    · simpa [hroute'] using hv
    · rw [hroute, hroute', rearm_a, rearm_a]
      exact { hfed with statsA := by simp [h.cfg, h.statsA] }
  · rw [hroute, ← hspec] at hv
    rw [hroute, ← hspec, ← hout] at hm
    refine ⟨_, (stepByteCommand_of_feed_true hfeed').trans (complete_of_valid (m := m) ?_ ?_), ?_⟩
    · simpa [hroute'] using hv
    · simpa [hroute'] using hm
    · rw [hroute, hroute', rearm_a, rearm_a]
      exact { hfed with
        statsA := by simp [h.cfg, h.statsA]
        lastTsA := by simp [h.tick]
        outA := by simp [afterValid] }

end Sys2Proof.Statements.AgreeOnA

namespace Sys2Proof.Machine

/-- The commands that touch nothing of the receive path. -/
theorem agreeOnA_of_side {i : Instr} {s t : State} (h : exec i s = .next t)
    (hi : (∃ p, i = .tx p) ∨ (∃ d n, i = .crc d n) ∨ ∃ w, i = .reserved w) : AgreeOnA s t := by
  obtain ⟨p, rfl⟩ | ⟨d, n, rfl⟩ | ⟨w, rfl⟩ := hi <;> cases exec_writes h <;> exact ⟨rfl, rfl, rfl, rfl, rfl, rfl, rfl⟩

theorem exec_agreeOnA {i : Instr} {s s' t t' : State} (h : AgreeOnA s s')
    (hroute : s.rx.a.state ≠ .completed ∨ ∀ b, i ≠ .stepB b) (ht : exec i s = .next t) (ht' : exec i s' = .next t') :
    AgreeOnA t t' := by
  cases i with
  | step => rw [exec_step_next ht, exec_step_next ht']; exact h.stepCommand
  | stepB b =>
    have hA : s.rx.a.state ≠ .completed := hroute.resolve_right fun hne => hne b rfl
    obtain ⟨-, hbody | ⟨e, he, rfl⟩⟩ := exec_next ht
    · obtain ⟨u, hu, hagree⟩ := h.stepByteCommand hA hbody
      cases (exec_of_body_ok (i := .stepB b) (exec_next ht').1 hu).symm.trans ht'
      exact hagree
    · obtain ⟨-, hbody' | ⟨e', -, rfl⟩⟩ := exec_next ht'
      · obtain ⟨u, hu, -⟩ := h.symm.stepByteCommand (h.rxA ▸ hA) hbody'
        cases he.symm.trans hu
      · exact (AgreeOnA.recorded_fault s e).symm.trans (h.trans (AgreeOnA.recorded_fault s' e'))
  | rxreset c => rw [exec_rxreset_next ht, exec_rxreset_next ht']; exact h.rxresetCommand c
  | reset => rw [exec_reset_next ht, exec_reset_next ht']; exact h.resetCommand
  | tx | crc | reserved =>
    refine (agreeOnA_of_side ht ?_).symm.trans (h.trans (agreeOnA_of_side ht' ?_)) <;> simp

/-! ### Error events (60 R211, R219, R220) -/

theorem length_faultEvents_le (body : Except Fault State) : (faultEvents body).length ≤ 1 := by
  cases body with
  | ok t => exact Nat.zero_le 1
  | error e => exact le_rfl

/-- A byte that fails the header match completes no frame. -/
theorem checksumMismatch_of_headerMismatch {b : Byte} {s : State} (hs : s.Inv) (h : headerMismatch b s = true) :
    checksumMismatch b s = false := by
  simp [checksumMismatch, feed, feedReceiver_of_headerMismatch hs h]

theorem txCommand_error {payload : List Byte} {s : State} {e : Fault} (hcfg : s.cfg.valid = true)
    (h : txCommand payload s = .error e) :
    e = .invalidPayloadLength ∧ payload.length ≠ payloadLength s.cfg.specTx := by
  by_cases hlen : payload.length = payloadLength s.cfg.specTx
  · rw [txCommand_ok (build_ok (valid_specTx hcfg).1 hlen)] at h
    cases h
  · rw [txCommand, build_error hlen] at h
    cases h
    exact ⟨rfl, hlen⟩

theorem checksumCommand_error {data : List Byte} {len : Nat} {s : State} {e : Fault}
    (h : checksumCommand data len s = .error e) : e = .crcLengthOutOfRange ∧ data.length < len := by
  by_cases hlen : len ≤ data.length
  · rw [checksumCommand_ok s hlen] at h
    cases h
  · rw [checksumCommand, crc16_error (Nat.lt_of_not_le hlen)] at h
    cases h
    exact ⟨rfl, Nat.lt_of_not_le hlen⟩

/-- A fault found in a command's next state was raised by its body. -/
theorem commandBody_error_of_fault {i : Instr} {s t : State} {r : Fault} (h : exec i s = .next t)
    (ht : t.fault = some r) : commandBody i s = .error r := by
  have hnone : s.fault = none := (exec_next h).1.noFault
  cases exec_writes h with
  | fault raised => cases ht; exact raised
  | step | stepB | rxreset | tx | crc | reset | reserved => exact absurd (hnone.symm.trans ht) nofun

end Sys2Proof.Machine
end

section
/-! The obligations on frames, counters, the order and the isolation of the channels, and error events. -/

open Sys2Proof Sys2Proof.Machine Sys2Proof.Statements

namespace Sys2Proof.Proofs

/-- Settles O21: STEP leaves both receivers, or its timeout resets A with B `Idle`; STEP.B feeds B only where A is
`Completed`, and a completion of B resets both. -/
theorem channelBBusyOnlyAfterA : Obligations.ChannelBBusyOnlyAfterA := by
  unfold Obligations.ChannelBBusyOnlyAfterA
  intro i s t hs h horder hrxreset htimeout
  show ReceiversInOrder t.rx
  obtain ⟨-, hbody | ⟨e, -, rfl⟩⟩ := exec_next h
  · cases i with
    | step => cases hbody; exact receiversInOrder_stepCommand hs horder fun ⟨hA, hgap⟩ => htimeout ⟨rfl, hA, hgap⟩
    | stepB b =>
      obtain ⟨done, r, -, hrx, -⟩ := stepByteCommand_delivers hbody
      rw [hrx]
      exact receiversInOrder_receiversAfter horder done r
    | rxreset c => exact absurd rfl (hrxreset c)
    | reset => cases hbody; exact fun hbusy => absurd rfl hbusy
    | tx p => obtain ⟨f, -, rfl⟩ := txCommand_cases hbody; exact horder
    | crc data len => obtain ⟨-, rfl⟩ := checksumCommand_cases hbody; exact horder
    | reserved w => cases hbody; exact horder
  · exact horder

/-- Settles O23: the three outcomes of a STEP body. -/
theorem stepFrame : Obligations.StepFrame := by
  unfold Obligations.StepFrame
  intro s t h
  rw [exec_step_next h]
  obtain ⟨hcfg, -, hrxB, hbuffer, hstatsB, hvalid, hinvalid, hts, hout, htx, hcrc, hf, href, hin⟩ := stepCommand_frame s
  have hstores : SameStores s (stepCommand s) :=
    sameStores_of_buffers (forall_channel.2 ⟨hbuffer, congrArg Receiver.buffer hrxB⟩) hout
  exact ⟨hstores, hrxB, hstatsB, hvalid, hinvalid, hts, htx, hcrc, hf, href, hcfg, hin⟩

/-- Settles O27: RXRESET and RESET write receivers by `reset()`, which keeps the buffers. -/
theorem controlCommandFrames : Obligations.ControlCommandFrames := by
  unfold Obligations.ControlCommandFrames
  refine ⟨fun c s t h => ?_, fun s t h => ?_, fun w s t h => ?_⟩
  · rw [exec_rxreset_next h, rxresetCommand_eq]
    refine ⟨sameStores_of_buffers (set_resetReceiver_buffer s.rx c) rfl,
      fun ch hch => PerChannel.get_set_other _ hch _, fun hb => ?_, rfl, rfl, rfl, rfl, rfl, rfl, rfl, rfl, rfl⟩
    subst hb
    rfl
  · rw [exec_reset_next h]
    have hbuffer : ∀ ch, ((resetCommand s).rx.get ch).buffer = (s.rx.get ch).buffer := fun ch => by
      rw [resetCommand_rx_get, resetReceiver_buffer]
    exact ⟨sameStores_of_buffers hbuffer rfl, rfl, rfl, rfl, rfl, rfl⟩
  · rw [exec_reserved_next h]
    exact ⟨sameStores_of_buffers (fun _ => rfl) rfl, rfl⟩

/-- Settles O30: a feed that does not complete a frame is the whole of the command. -/
theorem stepBFeedsTheRoutedReceiver : Obligations.StepBFeedsTheRoutedReceiver := by
  unfold Obligations.StepBFeedsTheRoutedReceiver
  exact fun s b r hr h => exec_stepB_of_feed_false hr h

/-- Settles O31: the feed in `Idle` and in `Starting`, with the fill counts that the invariant gives them. -/
theorem stepBHuntsForTheHeader : Obligations.StepBHuntsForTheHeader := by
  unfold Obligations.StepBHuntsForTheHeader
  intro s b hs hr
  have hmin := (valid_spec hs.config (route s)).1
  have hfill := (hs.rxOk (route s)).fill
  refine ⟨fun hidle hb => ?_, fun hidle hb => ?_, fun hstarting hb => ?_, fun hstarting hb => ?_⟩
  · exact exec_stepB_of_feed_false hr (feedReceiver_idle_match hmin hidle (hfill.of_idle hidle) hb)
  · rw [exec_stepB_of_feed_false hr (feedReceiver_idle_other hidle hb), afterFeed_same]
  · exact exec_stepB_of_feed_false hr (feedReceiver_starting_match hmin hstarting (hfill.of_starting hstarting) hb)
  · exact exec_stepB_of_feed_false hr (feedReceiver_starting_other hstarting hb)

/-- Settles O35: STEP has no failing branch, and from the invariant STEP.B has none that is taken. -/
theorem ticksAlwaysComplete : Obligations.TicksAlwaysComplete := by
  unfold Obligations.TicksAlwaysComplete
  intro s hs hr
  refine ⟨?_, fun b => ?_⟩
  · obtain ⟨-, htick, -, -, -, -, -, -, -, -, -, hf, href, -⟩ := stepCommand_frame s
    exact ⟨_, exec_step hr, ⟨hf.trans hr.noFault, href.trans hr.notRefused⟩, htick⟩
  · obtain ⟨t, ht⟩ := stepByteCommand_of_inv hs b
    obtain ⟨-, htick, hgap, -, -, hf, href, -⟩ := stepByteCommand_frame ht
    exact ⟨t, exec_of_body_ok hr ht, ⟨hf.trans hr.noFault, href.trans hr.notRefused⟩, htick, hgap⟩

/-- Settles O36: the parts of the state that a STEP.B writes, each by its own channel. -/
theorem stepBFrame : Obligations.StepBFrame := by
  unfold Obligations.StepBFrame
  intro b s t h
  obtain ⟨-, hbody | ⟨e, -, rfl⟩⟩ := exec_next h
  · obtain ⟨done, r, hfeed, hrx, hdelivers⟩ := stepByteCommand_delivers hbody
    obtain ⟨hcfg, -, -, htx, hcrc, -, href, hin⟩ := stepByteCommand_frame hbody
    refine ⟨fun ch k hk => ?_, fun ch k hk => hdelivers.read_out hk,
      fun ch hne => hdelivers.valid_of_changed (.inl hne), fun ch hne => hdelivers.valid_of_changed (.inr hne),
      fun ch hch => (hdelivers.other_channel hch).1, hdelivers.aborted, exec_stepB_rx_b h, ?_, htx, hcrc, href,
      hcfg, hin⟩
    · rw [hrx, receiversAfter_buffer]
      by_cases hch : ch = route s
      · subst hch
        rw [PerChannel.get_set_same]
        obtain hbuffer | hbuffer := feedReceiver_buffer hfeed <;> rw [hbuffer]
        exact Memory.read_write_other _ (fun heq => hk ⟨rfl, heq⟩) b
      · rw [PerChannel.get_set_other _ hch]
    · rw [hrx]
      obtain hsame | hroute | ⟨hroute, rfl, hreset⟩ := receiversAfter_a s done r
      · exact .inl hsame
      · exact .inr (.inl hroute)
      · rw [hroute] at hfeed
        exact .inr (.inr ⟨hroute, ⟨r, hfeed⟩, hreset⟩)
  · exact ⟨fun _ _ _ => rfl, fun _ _ _ => rfl, fun _ hne => absurd rfl hne, fun _ hne => absurd rfl hne, fun _ _ => rfl,
      fun _ => rfl, .inl rfl, .inl rfl, rfl, rfl, rfl, rfl, rfl⟩

/-- Settles O37: while A is not `Completed` it is routed to. -/
theorem channelBUntouchedUntilAIsComplete : Obligations.ChannelBUntouchedUntilAIsComplete := by
  unfold Obligations.ChannelBUntouchedUntilAIsComplete
  intro b s t hA h
  have hroute := route_of_not_completed hA
  obtain ⟨hstats, hts, hout⟩ := exec_stepB_other_channel (ch := .b) h (by simp [hroute])
  exact ⟨(exec_stepB_rx_b h).resolve_right (by simp [hroute]), hstats, hout, hts⟩

/-- Settles O40: a command counts once at most, and below the maximum a count is one more. -/
theorem countersOnlyGrowBelowTheMaximum : Obligations.CountersOnlyGrowBelowTheMaximum := by
  unfold Obligations.CountersOnlyGrowBelowTheMaximum
  intro i s t ch hreset h hvalid hinvalid haborted
  obtain hsame | hcount | hcount | hcount := exec_stats_cases hreset h ch
  · rw [hsame]
    omega
  · rw [hcount, inc_below hvalid]
    dsimp only
    omega
  · rw [hcount, inc_below hinvalid]
    dsimp only
    omega
  · rw [hcount, inc_below haborted]
    dsimp only
    omega

/-- Settles O43: only a valid completion writes an output buffer, by copying a buffer whose bytes are all written. -/
theorem outputBuffersHoldWholePayloads : Obligations.OutputBuffersHoldWholePayloads := by
  unfold Obligations.OutputBuffersHoldWholePayloads
  intro i s t ch hs h hne
  obtain hout | ⟨b, r, m, rfl, hfeed, hv, hcopy, hrx, hout⟩ := exec_out h
  · exact absurd (by rw [hout]) hne
  · have hch : ch = route s := by
      by_contra hch
      exact hne (by rw [hout, PerChannel.get_set_other _ hch])
    subst hch
    have hT := valid_spec hs.config (route s)
    obtain ⟨hstate, hfill⟩ := feedReceiver_completes hT (hs.rxOk _) hfeed
    refine ⟨b, rfl, rfl, hstate, hfill, checksumMismatch_of_matched hfeed hv, ?_⟩
    rw [hout, hrx, receiversAfter_buffer, PerChannel.get_set_same, PerChannel.get_set_same]
    exact (copyPayload_reads (hs.outOk _) (written_of_feed_true hT (hs.rxOk _) hfeed) hcopy).2

/-- Settles O53: TX writes `tx_stream` by appending, CRC writes `crc_out`, or they write the fault. -/
theorem txAndCrcFrames : Obligations.TxAndCrcFrames := by
  unfold Obligations.TxAndCrcFrames
  refine ⟨fun payload s t h => ?_, fun data len s t h => ?_⟩
  · obtain ⟨-, hbody | ⟨e, -, rfl⟩⟩ := exec_next h
    · obtain ⟨f, -, rfl⟩ := txCommand_cases hbody
      exact ⟨fun _ _ => ⟨rfl, rfl⟩, rfl, rfl, rfl, rfl, rfl, rfl, rfl, rfl, rfl, rfl,
        fun k hk => List.getElem?_append_left hk⟩
    · exact ⟨fun _ _ => ⟨rfl, rfl⟩, rfl, rfl, rfl, rfl, rfl, rfl, rfl, rfl, rfl, rfl, fun _ _ => rfl⟩
  · obtain ⟨-, hbody | ⟨e, -, rfl⟩⟩ := exec_next h
    · obtain ⟨-, rfl⟩ := checksumCommand_cases hbody
      exact ⟨fun _ _ => ⟨rfl, rfl⟩, rfl, rfl, rfl, rfl, rfl, rfl, rfl, rfl, rfl, rfl⟩
    · exact ⟨fun _ _ => ⟨rfl, rfl⟩, rfl, rfl, rfl, rfl, rfl, rfl, rfl, rfl, rfl, rfl⟩

/-- Settles O54: TX and CRC change what the receive path does not use, and it changes nothing that they use. -/
theorem txAndCrcCommuteWithReceive : Obligations.TxAndCrcCommuteWithReceive := by
  unfold Obligations.TxAndCrcCommuteWithReceive
  intro s i j hs hr hi hj
  obtain ⟨tx, crc, hside⟩ := exec_side_command hs.config hi
  obtain ⟨u, hu, hru, hcommute⟩ := exec_receive_command hs hr hj
  refine ⟨u.mapSide tx crc id, ?_, ?_⟩
  · rw [execAll_cons_of_next (hside s hr rfl), execAll_cons_of_next (hcommute tx crc), execAll_nil]
  · rw [execAll_cons_of_next hu, execAll_cons_of_next (hside u hru (exec_cfg hu)), execAll_nil]

/-- Settles O58: what a command does to A's part is a function of A's part; a STEP.B with A `Completed` goes to B. -/
theorem channelAResultsIgnoreChannelB : Obligations.ChannelAResultsIgnoreChannelB := by
  unfold Obligations.ChannelAResultsIgnoreChannelB
  intro i s s' t t' h ht ht'
  by_cases hroute : s.rx.a.state ≠ .completed ∨ ∀ b, i ≠ .stepB b
  · have hagree := exec_agreeOnA h hroute ht ht'
    exact ⟨hagree.statsA, hagree.lastTsA, hagree.outA, fun _ => hagree.rxA⟩
  · obtain ⟨hA, hbyte⟩ := not_or.1 hroute
    rw [not_not] at hA
    obtain ⟨b, hb⟩ := not_forall.1 hbyte
    obtain rfl := not_not.1 hb
    have hb := route_of_completed hA
    have hb' : route s' = .b := route_of_completed (h.rxA ▸ hA)
    obtain ⟨hstats, hts, hout⟩ := exec_stepB_other_channel (ch := .a) ht (by simp [hb])
    obtain ⟨hstats', hts', hout'⟩ := exec_stepB_other_channel (ch := .a) ht' (by simp [hb'])
    exact ⟨hstats.trans (h.statsA.trans hstats'.symm), hts.trans (h.lastTsA.trans hts'.symm),
      hout.trans (h.outA.trans hout'.symm), absurd hA⟩

/-- Settles O59: a STEP.B does not fault, and the two mismatches exclude each other; the other commands check once. -/
theorem atMostOneErrorEvent : Obligations.AtMostOneErrorEvent := by
  unfold Obligations.AtMostOneErrorEvent
  intro i s hs
  cases i with
  | step =>
    unfold errorEvents
    split_ifs <;> simp
  | stepB b =>
    obtain ⟨t, ht⟩ := stepByteCommand_of_inv hs b
    cases hheader : headerMismatch b s with
    | true => simp [errorEvents, hheader, checksumMismatch_of_headerMismatch hs hheader, ht, faultEvents]
    | false => cases hcrc : checksumMismatch b s <;> simp [errorEvents, hheader, hcrc, ht, faultEvents]
  | tx | crc => exact length_faultEvents_le _
  | rxreset | reset | reserved => simp [errorEvents]

/-- Settles O60: the decoder does not look at the ports of a reserved word; from the invariant only TX and CRC fault,
and only by the check of their side operand. -/
theorem checksComeInOrder : Obligations.ChecksComeInOrder := by
  unfold Obligations.ChecksComeInOrder
  refine ⟨fun w p s hw hr => ?_, fun i s t r hs h ht => ?_⟩
  · rw [decode_of_reservedWord hw, exec_reserved hr]
  · have hbody := commandBody_error_of_fault h ht
    obtain ⟨p, rfl⟩ | ⟨d, n, rfl⟩ := commandBody_error_of_inv hs hbody
    · obtain ⟨hr, hlen⟩ := txCommand_error hs.config hbody
      exact .inl ⟨p, rfl, hr, hlen⟩
    · obtain ⟨hr, hlen⟩ := checksumCommand_error hbody
      exact .inr ⟨d, n, rfl, hr, hlen⟩

end Sys2Proof.Proofs
end

section
/-! Silence and whole frames through the receive path (42 section 4): a run of STEPs below and past the threshold, and a
stream of bytes with silence in it, up to the byte that completes a frame. -/

open Sys2Proof.Statements

namespace Sys2Proof.Machine

/-! ### Commands that leave the machine running -/

theorem execAll_singleton (i : Instr) (s : State) : execAll [i] s = exec i s := by
  cases h : exec i s <;> simp [execAll, h]

theorem execAll_inv {is : List Instr} {s t : State} (hs : s.Inv) (h : execAll is s = .next t) : t.Inv := by
  induction is generalizing s with
  | nil => cases h; exact hs
  | cons i is ih =>
    obtain ⟨u, hi, hrest⟩ := execAll_cons_next h
    exact ih (exec_inv hs hi) hrest

theorem execAll_cfg {is : List Instr} {s t : State} (h : execAll is s = .next t) : t.cfg = s.cfg := by
  induction is generalizing s with
  | nil => cases h; rfl
  | cons i is ih =>
    obtain ⟨u, hi, hrest⟩ := execAll_cons_next h
    exact (ih hrest).trans (exec_cfg hi)

theorem exec_stepB_running {b : Byte} {s t : State} (hs : s.Inv) (h : exec (.stepB b) s = .next t) : t.Running := by
  obtain ⟨u, hu, hr, -⟩ := exec_receive_command hs (exec_next h).1 (.inr (.inl ⟨b, rfl⟩))
  cases hu.symm.trans h
  exact hr

/-! ### Silence (42 R151, R152, R163) -/

theorem waitTicks_succ (n : Nat) : waitTicks (n + 1) = .step :: waitTicks n := rfl

theorem waitTicks_add (m n : Nat) : waitTicks (m + n) = waitTicks m ++ waitTicks n := List.replicate_add ..

/-- `t` is `s` with nothing changed but the tick and the gap. -/
def OnlyTicked (s t : State) : Prop := ∃ k g, t = { s with tickCounter := k, gapCounter := g }

theorem OnlyTicked.refl (s : State) : OnlyTicked s s := ⟨s.tickCounter, s.gapCounter, rfl⟩

theorem OnlyTicked.trans {s t u : State} (h : OnlyTicked s t) (k : OnlyTicked t u) : OnlyTicked s u := by
  obtain ⟨_, _, rfl⟩ := h
  exact k

theorem OnlyTicked.running {s t : State} (h : OnlyTicked s t) (hr : s.Running) : t.Running := by
  obtain ⟨_, _, rfl⟩ := h
  exact ⟨hr.noFault, hr.notRefused⟩

/-- `n` more ticks of silence do not reach the threshold, or A is `Idle`, where no gap is counted (42 R151). -/
def GapFits (s : State) (n : Nat) : Prop :=
  s.rx.a.state = .idle ∨ s.gapCounter.toNat + n < s.cfg.timeoutTicks

/-- Silence below the threshold changes nothing but the tick, and the gap where A is busy. -/
theorem execAll_waitTicks {s : State} {n : Nat} (hs : s.Inv) (hr : s.Running) (h : GapFits s n) :
    ∃ t, execAll (waitTicks n) s = .next t ∧ OnlyTicked s t
      ∧ (s.rx.a.state = .idle → t.gapCounter = s.gapCounter)
      ∧ (s.rx.a.state ≠ .idle → t.gapCounter.toNat = s.gapCounter.toNat + n) := by
  induction n generalizing s with
  | zero => exact ⟨s, rfl, .refl s, fun _ => rfl, fun _ => rfl⟩
  | succ n ih =>
    by_cases hidle : s.rx.a.state = .idle
    · have hstep : exec .step s = .next (tick s) := by rw [exec_step hr, stepCommand_idle hidle]
      have hticked : OnlyTicked s (tick s) := ⟨_, _, rfl⟩
      obtain ⟨t, ht, hticked', hgap, -⟩ := ih (exec_inv hs hstep) (hticked.running hr) (.inl hidle)
      exact ⟨t, (execAll_cons_of_next hstep).trans ht, hticked.trans hticked', fun _ => hgap hidle, absurd hidle⟩
    · have hfits : s.gapCounter.toNat + (n + 1) < s.cfg.timeoutTicks := h.resolve_left hidle
      have hsucc := hs.gapCounter_succ
      have hstep : exec .step s = .next { tick s with gapCounter := s.gapCounter + 1#32 } := by
        rw [exec_step hr, stepCommand_gap hidle (by omega)]
      have hticked : OnlyTicked s { tick s with gapCounter := s.gapCounter + 1#32 } := ⟨_, _, rfl⟩
      have hfits' : (s.gapCounter + 1#32).toNat + n < s.cfg.timeoutTicks := by omega
      obtain ⟨t, ht, hticked', -, hgap⟩ := ih (exec_inv hs hstep) (hticked.running hr) (.inr hfits')
      refine ⟨t, (execAll_cons_of_next hstep).trans ht, hticked.trans hticked', fun h => absurd h hidle, fun _ => ?_⟩
      have hcounted : t.gapCounter.toNat = (s.gapCounter + 1#32).toNat + n := hgap hidle
      omega

/-- The silence that reaches the threshold: one abort of A, and then no gap is counted (42 R152). -/
theorem execAll_waitTicks_abort {s : State} {n : Nat} (hs : s.Inv) (hr : s.Running) (hbusy : s.rx.a.state ≠ .idle)
    (hgap : s.gapCounter = 0#32) (hn : s.cfg.timeoutTicks ≤ n) :
    ∃ t, execAll (waitTicks n) s = .next t ∧ OnlyTicked (timeoutAbort s) t ∧ t.gapCounter = 0#32 := by
  have hT := (valid_timeout hs.config).1
  have hsplit : n = (s.cfg.timeoutTicks - 1) + ((n - s.cfg.timeoutTicks) + 1) := by omega
  have hfits : s.gapCounter.toNat + (s.cfg.timeoutTicks - 1) < s.cfg.timeoutTicks := by simp [hgap]; omega
  obtain ⟨u, hu, hticked, -, hcounted⟩ := execAll_waitTicks hs hr (.inr hfits)
  have huInv := execAll_inv hs hu
  have hru := hticked.running hr
  have hgap' : u.gapCounter.toNat = s.cfg.timeoutTicks - 1 := by rw [hcounted hbusy, hgap]; simp
  have hsucc := huInv.gapCounter_succ
  obtain ⟨k, g, rfl⟩ := hticked
  have hstep := (exec_step hru).trans (congrArg _ (stepCommand_timeout hbusy (show s.cfg.timeoutTicks ≤ _ by omega)))
  obtain ⟨t, ht, hticked', hgap'', -⟩ := execAll_waitTicks (n := n - s.cfg.timeoutTicks) (exec_inv huInv hstep)
    ⟨hr.noFault, hr.notRefused⟩ (.inl rfl)
  refine ⟨t, ?_, hticked', hgap'' rfl⟩
  rw [hsplit, waitTicks_add, execAll_append hu, waitTicks_succ, execAll_cons_of_next hstep, ht]

/-! ### The bytes of a frame before its last one (41 R122 to R124) -/

theorem route_eq_b_iff {s : State} : route s = .b ↔ s.rx.a.state = .completed := by
  refine ⟨fun h => ?_, route_of_completed⟩
  by_contra hA
  cases (route_of_not_completed hA).symm.trans h

theorem route_afterFeed {s : State} {r : Receiver} (h : r.state ≠ .completed) : route (afterFeed s r) = route s := by
  cases hroute : route s with
  | a =>
    refine route_of_not_completed ?_
    rwa [afterFeed_rx, hroute, PerChannel.set_a_a]
  | b =>
    refine route_of_completed ?_
    rw [afterFeed_rx, hroute, PerChannel.set_b_a]
    exact route_eq_b_iff.1 hroute

/-- Where a receiver that is not `Completed` expects `b` and it is not the last byte, the feed stores it. -/
theorem feedReceiver_accepts {spec : FrameSpec} {r : Receiver} {b : Byte}
    (hT : 4 ≤ spec.totalSize ∧ spec.totalSize ≤ 65535) (hr : Receiver.Ok spec r) (hcompleted : r.state ≠ .completed)
    (hmore : r.fillCount.toNat + 1 < spec.totalSize) (h0 : r.fillCount.toNat = 0 → b = hi8 spec.header)
    (h1 : r.fillCount.toNat = 1 → b = lo8 spec.header) :
    ∃ st, st ≠ .completed ∧ feedReceiver spec b r
      = .ok (false, { state := st, buffer := Memory.write r.buffer r.fillCount.toNat b,
                      fillCount := r.fillCount + 1#16 }) := by
  cases hs : r.state with
  | idle =>
    have hfill := hr.fill.of_idle hs
    refine ⟨.starting, nofun, ?_⟩
    rw [feedReceiver_idle_match hT.1 hs hfill (h0 (by rw [hfill]; rfl)), hfill]
    rfl
  | starting =>
    have hfill := hr.fill.of_starting hs
    refine ⟨.receiving, nofun, ?_⟩
    rw [feedReceiver_starting_match hT.1 hs hfill (h1 (by rw [hfill]; rfl)), hfill]
    rfl
  | receiving => exact ⟨.receiving, nofun, feedReceiver_receiving hT.2 hs hmore b⟩
  | completed => exact absurd hs hcompleted

/-- The fill count tells the middle of a frame (10 R23). -/
theorem FillMatchesState.receiving_of_middle {spec : FrameSpec} {r : Receiver} (h : FillMatchesState spec r)
    (hmin : 2 ≤ r.fillCount.toNat) (hmax : r.fillCount.toNat < spec.totalSize) : r.state = .receiving := by
  cases hs : r.state with
  | idle => simp [h.of_idle hs] at hmin
  | starting => simp [h.of_starting hs] at hmin
  | receiving => rfl
  | completed =>
    simp only [FillMatchesState, hs] at h
    exact absurd h hmax.ne

/-- `s` is `s₀` after some bytes for channel `ch`, none of which completed a frame: the receiver of `ch` has taken `f`,
and the other channel and what a completion writes are as they were. -/
structure Accepted (s₀ : State) (ch : Channel) (f : List Byte) (s : State) : Prop where
  inv : s.Inv
  running : s.Running
  routed : route s = ch
  fill : (s.rx.get ch).fillCount.toNat = f.length
  taken : ∀ k, k < f.length → Memory.read (s.rx.get ch).buffer k = f[k]?
  cfg : s.cfg = s₀.cfg
  stats : s.stats = s₀.stats
  out : s.out = s₀.out
  otherRx : ∀ c, c ≠ ch → s.rx.get c = s₀.rx.get c

namespace Accepted

variable {s₀ s : State} {ch : Channel} {f : List Byte}

/-- Nothing taken yet. -/
theorem start (hs : s.Inv) (hr : s.Running) (hroute : route s = ch) (hidle : (s.rx.get ch).state = .idle) :
    Accepted s ch [] s :=
  ⟨hs, hr, hroute, by rw [(hs.rxOk ch).fill.of_idle hidle]; rfl, nofun, rfl, rfl, rfl, fun _ _ => rfl⟩

theorem not_completed (h : Accepted s₀ ch f s) : (s.rx.get ch).state ≠ .completed := by
  cases ch with
  | a => exact fun hA => by cases h.routed.symm.trans (route_of_completed hA)
  | b => exact h.inv.bNotCompleted

/-- Silence below the threshold keeps what was taken. -/
theorem silence (h : Accepted s₀ ch f s) {n : Nat} (hfits : GapFits s n) :
    ∃ t, execAll (waitTicks n) s = .next t ∧ Accepted s₀ ch f t := by
  obtain ⟨t, ht, hticked, -⟩ := execAll_waitTicks h.inv h.running hfits
  have hinv := execAll_inv h.inv ht
  have hrunning := hticked.running h.running
  obtain ⟨k, g, rfl⟩ := hticked
  exact ⟨_, ht, { h with inv := hinv, running := hrunning }⟩

/-- The next byte of a frame is taken, and clears the gap (42 R153). -/
theorem next_byte (h : Accepted s₀ ch f s) {b : Byte} (hmore : f.length + 1 < (s₀.cfg.spec ch).totalSize)
    (h0 : f.length = 0 → b = hi8 (s₀.cfg.spec ch).header) (h1 : f.length = 1 → b = lo8 (s₀.cfg.spec ch).header) :
    ∃ t, exec (.stepB b) s = .next t ∧ Accepted s₀ ch (f ++ [b]) t ∧ t.gapCounter = 0#32 := by
  obtain rfl := h.routed
  have hT := valid_spec h.inv.config (route s)
  rw [← h.cfg] at hmore h0 h1
  obtain ⟨st, hst, hfeed⟩ := feedReceiver_accepts hT (h.inv.rxOk _) h.not_completed (h.fill ▸ hmore) (h.fill ▸ h0)
    (h.fill ▸ h1)
  have hexec := exec_stepB_of_feed_false h.running hfeed
  have hfill : ((s.rx.get (route s)).fillCount + 1#16).toNat = f.length + 1 := by
    rw [BitVec.toNat_add_of_lt (by rw [h.fill]; exact hmore.trans_le (hT.2.trans (by decide))), h.fill]
    rfl
  refine ⟨_, hexec, ?_, rfl⟩
  constructor
  case inv => exact exec_inv h.inv hexec
  case running => exact exec_stepB_running h.inv hexec
  case routed => exact route_afterFeed hst
  case fill => rw [afterFeed_rx, PerChannel.get_set_same, hfill, List.length_append, List.length_singleton]
  case taken =>
    intro k hk
    rw [List.length_append, List.length_singleton] at hk
    rw [afterFeed_rx, PerChannel.get_set_same, h.fill]
    exact Memory.read_write_length h.taken b hk
  case cfg => exact h.cfg
  case stats => exact h.stats
  case out => exact h.out
  case otherRx =>
    intro c hc
    rw [afterFeed_rx, PerChannel.get_set_other _ hc, h.otherRx c hc]

/-- A stream that carries the rest of a frame, with no silence that reaches the threshold, runs up to its last byte. -/
theorem rest_of_frame {g : List Byte} {stream : List (Nat × Byte)} (h : Accepted s₀ ch f s)
    (hbytes : f ++ stream.map Prod.snd = g) (hlength : g.length = (s₀.cfg.spec ch).totalSize)
    (hheader : [hi8 (s₀.cfg.spec ch).header, lo8 (s₀.cfg.spec ch).header] <+: g) (hne : stream ≠ [])
    (hfirst : ∀ x, stream.head? = some x → GapFits s x.1) (hshort : ShortGaps s₀.cfg stream.tail) :
    ∃ u taken b, g = taken ++ [b] ∧ execAll (feedWithGaps stream) s = exec (.stepB b) u ∧ Accepted s₀ ch taken u := by
  induction stream generalizing s f with
  | nil => exact absurd rfl hne
  | cons x rest ih =>
    obtain ⟨n, b⟩ := x
    obtain ⟨u, hu, hsilent⟩ := h.silence (hfirst _ rfl)
    have hrun : execAll (feedWithGaps ((n, b) :: rest)) s = execAll (.stepB b :: feedWithGaps rest) u :=
      execAll_append hu
    cases rest with
    | nil => exact ⟨u, f, b, hbytes.symm, hrun.trans (execAll_singleton _ _), hsilent⟩
    | cons y rest =>
      have hmore : f.length + 1 < (s₀.cfg.spec ch).totalSize := by
        rw [← hlength, ← hbytes]
        simp
      have h0 : f.length = 0 → b = hi8 (s₀.cfg.spec ch).header := by
        intro h0
        obtain rfl := List.length_eq_zero_iff.1 h0
        rw [← hbytes] at hheader
        exact (List.cons_prefix_cons.1 hheader).1.symm
      have h1 : f.length = 1 → b = lo8 (s₀.cfg.spec ch).header := by
        intro h1
        obtain ⟨z, rfl⟩ := List.length_eq_one_iff.1 h1
        rw [← hbytes] at hheader
        exact (List.cons_prefix_cons.1 (List.cons_prefix_cons.1 hheader).2).1.symm
      obtain ⟨t, ht, htaken, hgap⟩ := hsilent.next_byte hmore h0 h1
      have hfirst' : ∀ z, (y :: rest).head? = some z → GapFits t z.1 := by
        rintro z ⟨⟩
        refine .inr ?_
        rw [hgap, htaken.cfg]
        simpa using hshort y (by simp)
      have hshort' : ShortGaps s₀.cfg (y :: rest).tail := fun z hz => hshort z (List.mem_of_mem_tail hz)
      obtain ⟨v, taken, c, hg, hexec, hv⟩ := ih htaken (by simpa using hbytes) (by simp) hfirst' hshort'
      exact ⟨v, taken, c, hg, hrun.trans ((execAll_cons_of_next ht).trans hexec), hv⟩

end Accepted

/-- From `Idle`, a stream that carries a whole frame runs up to the byte that completes it. -/
theorem execAll_frame {s : State} {ch : Channel} {g : List Byte} {stream : List (Nat × Byte)} (hs : s.Inv)
    (hr : s.Running) (hroute : route s = ch) (hidle : (s.rx.get ch).state = .idle)
    (hbytes : stream.map Prod.snd = g) (hlength : g.length = (s.cfg.spec ch).totalSize)
    (hheader : [hi8 (s.cfg.spec ch).header, lo8 (s.cfg.spec ch).header] <+: g)
    (hfirst : ∀ x, stream.head? = some x → GapFits s x.1) (hshort : ShortGaps s.cfg stream.tail) :
    ∃ u body x b, g = body ++ [x, b] ∧ execAll (feedWithGaps stream) s = exec (.stepB b) u ∧ LastByteDue u body x
      ∧ Accepted s ch (body ++ [x]) u := by
  have hT := valid_spec hs.config ch
  have hne : stream ≠ [] := by
    rintro rfl
    subst hbytes
    simp at hlength
    omega
  obtain ⟨u, taken, b, rfl, hexec, hu⟩ := (Accepted.start hs hr hroute hidle).rest_of_frame hbytes hlength hheader hne
    hfirst hshort
  rw [List.length_append, List.length_singleton] at hlength
  obtain rfl | ⟨body, x, rfl⟩ := List.eq_nil_or_concat' taken
  · simp at hlength
    omega
  · refine ⟨u, body, x, b, by simp, hexec, ?_, hu⟩
    obtain rfl := hu.routed
    have hfill := hu.fill
    rw [List.length_append, List.length_singleton] at hfill hlength
    rw [← hu.cfg] at hlength hT
    have hstate : (u.rx.get (route u)).state = .receiving :=
      (hu.inv.rxOk _).fill.receiving_of_middle (by omega) (by omega)
    exact ⟨hu.inv, hu.running, hstate, by omega, by omega, fun k hk => hu.taken k (hu.fill ▸ hk)⟩

/-- From `Idle`, a stream that carries a built frame ends in a valid completion, from a state `u` in which nothing that
a completion writes has changed. -/
theorem execAll_built_frame {s : State} {ch : Channel} {payload f : List Byte} {stream : List (Nat × Byte)} (hs : s.Inv)
    (hr : s.Running) (hroute : route s = ch) (hidle : (s.rx.get ch).state = .idle)
    (hbuild : build payload (s.cfg.spec ch) = .ok f) (hbytes : stream.map Prod.snd = f)
    (hfirst : ∀ x, stream.head? = some x → GapFits s x.1) (hshort : ShortGaps s.cfg stream.tail) :
    ∃ u m r taken, execAll (feedWithGaps stream) s = .next (rearm ch (afterValid ch m (afterFeed u r)))
      ∧ (∀ k, Memory.read m k = payload[k]?) ∧ r.state = .completed ∧ Accepted s ch taken u := by
  have hT := (valid_spec hs.config ch).1
  have hlength := length_of_build hT hbuild
  obtain ⟨covered, hcovered, -, hframe⟩ := build_frame hT hbuild
  have hheader : [hi8 (s.cfg.spec ch).header, lo8 (s.cfg.spec ch).header] <+: f := by
    rw [hframe, hcovered]
    exact ⟨_, rfl⟩
  obtain ⟨u, body, x, b, hf, hexec, hdue, hu⟩ := execAll_frame hs hr hroute hidle hbytes hlength hheader hfirst hshort
  obtain ⟨rfl, hcrc⟩ := List.append_inj' (hframe.symm.trans hf) rfl
  simp only [List.cons.injEq, and_true] at hcrc
  obtain ⟨rfl, rfl⟩ := hcrc
  obtain ⟨m, -, hread, hlast⟩ := hdue.exec_stepB_match (be16_hi8_lo8 _)
  rw [hu.routed] at hlast
  exact ⟨u, m, _, _, hexec.trans hlast, by simpa [hcovered] using hread, rfl, hu⟩

/-- From `Idle`, a stream that carries any frame is counted once, as valid or as invalid. -/
theorem execAll_counts_once {s : State} {ch : Channel} {g : List Byte} {stream : List (Nat × Byte)} (hs : s.Inv)
    (hr : s.Running) (hroute : route s = ch) (hidle : (s.rx.get ch).state = .idle)
    (hbytes : stream.map Prod.snd = g) (hlength : g.length = (s.cfg.spec ch).totalSize)
    (hheader : [hi8 (s.cfg.spec ch).header, lo8 (s.cfg.spec ch).header] <+: g)
    (hfirst : ∀ x, stream.head? = some x → GapFits s x.1) (hshort : ShortGaps s.cfg stream.tail) :
    ∃ t u r taken, execAll (feedWithGaps stream) s = .next t ∧ t.Running ∧ t.gapCounter = 0#32
      ∧ (t.stats = (countValid ch s).stats ∨ t.stats = (countInvalid ch s).stats)
      ∧ t.rx = receiversAfter u true r ∧ r.state = .completed ∧ Accepted s ch taken u := by
  obtain ⟨u, body, x, b, -, hexec, hdue, hu⟩ := execAll_frame hs hr hroute hidle hbytes hlength hheader hfirst hshort
  obtain ⟨t, hlast, hrx, hgap, hmatch, hmismatch⟩ := hdue.exec_stepB_rearms b
  refine ⟨_, u, _, _, hexec.trans hlast, exec_stepB_running hdue.inv hlast, by rw [rearm_gapCounter, hgap], ?_,
    rearm_rx_afterFeed hrx, rfl, hu⟩
  by_cases hcrc : be16 x b = crcBytes 0xFFFF#16 body
  · exact .inl (by rw [rearm_stats, hmatch hcrc, countValid_stats, countValid_stats, hu.routed, hu.stats, hu.cfg])
  · exact .inr (by
      rw [rearm_stats, hmismatch hcrc, countInvalid_stats, countInvalid_stats, hu.routed, hu.stats, hu.cfg])

end Sys2Proof.Machine
end

section
/-! The obligations on silence and on whole frames. -/

open Sys2Proof Sys2Proof.Machine

namespace Sys2Proof.Proofs

/-- Settles O24: silence below the threshold is only counted; at it one STEP aborts A, which is `Idle` from then on. -/
theorem silenceAbortsExactlyOnce : Obligations.SilenceAbortsExactlyOnce := by
  unfold Obligations.SilenceAbortsExactlyOnce
  intro s hs hr hbusy hgap
  refine ⟨fun n hn => ?_, fun n hn => ?_⟩
  · have hfits : s.gapCounter.toNat + n < s.cfg.timeoutTicks := by simpa [hgap] using hn
    obtain ⟨t, ht, hticked, -, hcounted⟩ := execAll_waitTicks hs hr (.inr hfits)
    obtain ⟨k, g, rfl⟩ := hticked
    exact ⟨_, ht, rfl, rfl, by simpa [hgap] using hcounted hbusy⟩
  · obtain ⟨t, ht, hticked, hzero⟩ := execAll_waitTicks_abort hs hr hbusy hgap hn
    obtain ⟨k, g, rfl⟩ := hticked
    exact ⟨_, ht, rfl, rfl, rfl, hzero, rfl, rfl, rfl⟩

/-- Settles O55: while A is `Idle` no gap is counted, so any silence may stand before the first byte; a completion of A
re-arms nothing. -/
theorem roundTripThroughChannelA : Obligations.RoundTripThroughChannelA := by
  unfold Obligations.RoundTripThroughChannelA
  intro s payload f stream hs hr hidle hbuild hbytes hshort
  have hroute : route s = .a := route_of_not_completed (by rw [hidle]; exact nofun)
  obtain ⟨u, m, r, taken, hexec, hread, hcompleted, hu⟩ :=
    execAll_built_frame hs hr hroute hidle hbuild hbytes (fun _ _ => .inl hidle) hshort
  refine ⟨_, hexec, ?_⟩
  rw [rearm_a]
  have hrxB : u.rx.b = s.rx.b := hu.otherRx .b nofun
  simp [afterValid, hu.cfg, hu.stats, hu.out, hu.routed, hcompleted, hrxB, hread]

/-- Settles O56: the silence before the first byte counts on top of A's gap; a completion of B re-arms both. -/
theorem roundTripThroughChannelB : Obligations.RoundTripThroughChannelB := by
  unfold Obligations.RoundTripThroughChannelB
  intro s payload f stream hs hr hA hidle hbuild hbytes hshort hfirst
  obtain ⟨u, m, r, taken, hexec, hread, -, hu⟩ :=
    execAll_built_frame hs hr (route_of_completed hA) hidle hbuild hbytes (fun x hx => .inr (hfirst x hx)) hshort
  refine ⟨_, hexec, ?_⟩
  rw [rearm_eq, rearm_b_rx]
  simp [afterValid, hu.cfg, hu.stats, hu.out, hread]

/-- Settles O57: A's frame leaves A `Completed`, so that B's is routed to B, with no gap counted. -/
theorem cleanCycleCountsOneFrameEach : Obligations.CleanCycleCountsOneFrameEach := by
  unfold Obligations.CleanCycleCountsOneFrameEach
  intro s restA restB xa xb hs hr hA hB hbytesA hlengthA hbytesB hlengthB hshortA hshortB
  have hroute : route s = .a := route_of_not_completed (by rw [hA]; exact nofun)
  obtain ⟨u, v, r, taken, hexec, hru, hgap, hstats, hrx, hcompleted, hv⟩ :=
    execAll_counts_once hs hr hroute hA rfl ((List.length_map ..).trans hlengthA) ⟨restA, hbytesA.symm⟩
      (fun _ _ => .inl hA) hshortA
  have hcfg : u.cfg = s.cfg := execAll_cfg hexec
  rw [receiversAfter_of_route_a hv.routed] at hrx
  have huA : u.rx.a.state = .completed := by rw [hrx, hcompleted]
  have huB : u.rx.b.state = .idle := by rw [hrx, ← hB]; exact congrArg Receiver.state (hv.otherRx .b nofun)
  have hfirst : ∀ x, xb.head? = some x → GapFits u x.1 := by
    intro x hx
    refine .inr ?_
    rw [hgap, hcfg]
    simpa using hshortB x (List.mem_of_mem_head? hx)
  obtain ⟨t, w, r', _, hexec', -, -, hstats', hrx', -, hw⟩ :=
    execAll_counts_once (execAll_inv hs hexec) hru (route_of_completed huA) huB rfl
      ((List.length_map ..).trans (hcfg ▸ hlengthB)) ⟨restB, hcfg ▸ hbytesB.symm⟩ hfirst
      (hcfg ▸ fun x hx => hshortB x (List.mem_of_mem_tail hx))
  rw [receiversAfter_of_route_b hw.routed] at hrx'
  refine ⟨u, t, hexec, hexec', huA, huB, by rw [hrx']; rfl, by rw [hrx']; rfl, ?_, ?_⟩
  · obtain hstats' | hstats' := hstats' <;> obtain hstats | hstats := hstats <;> simp [hstats', hstats]
  · obtain hstats' | hstats' := hstats' <;> obtain hstats | hstats := hstats <;> simp [hstats', hstats, hcfg]

end Sys2Proof.Proofs
end
